-- ==== Sys2Proof/Word.lean ====
section
/-! DEFINITION. The words the unit moves: bytes, the 32-bit words of the backing store, and the 64-bit
operands and results of the command and response frames (spec/00_scope.md R6, R7; spec/30_encoding.md R80, R90). -/

namespace Sys2Proof

/-- Eight bits of the backing store, a stream byte (20_memory.md R52(a)). -/
abbrev Byte := BitVec 8

/-- "a 32-bit unsigned storage unit inside the backing buffer" (00_scope.md R9, R5 WORD_BITS). -/
abbrev Word := BitVec 32

/-- A 64-bit operand or result of a frame (30_encoding.md R80, R90). -/
abbrev DWord := BitVec 64

end Sys2Proof
end

