-- ==== Sys2Proof/Config.lean ====
section
/-! DEFINITION. The implementation parameters of spec/00_scope.md R5. MAX_WORDS is a field of the state (so that
every statement holds for every value of it); here stand its bounds and the value `State.reset` gives it. -/

namespace Sys2Proof

/-- Which 32-bit half of a 64-bit value goes to the stream first (00_scope.md R5, 93 U8). -/
inductive HalfOrder where
  | lowFirst
  | highFirst
deriving DecidableEq, Repr

/-- WORD_BITS (R5): width of one backing-store word. -/
def Config.wordBits : Nat := 32

/-- DEFAULT_CAP_WORDS (R5): words allocated by default creation. -/
def Config.defaultCapWords : Nat := 1

/-- MASK_ENTRIES (R5, 10_state.md R29). -/
def Config.maskEntries : Nat := 33

/-- The largest MAX_WORDS the spec admits (R5). -/
def Config.maxWordsBound : Nat := 2 ^ 57

/-- DESIGN CHOICE (log entry 5, unsafe): the MAX_WORDS of `State.reset`. R5 gives no value ("model argument"). -/
def Config.resetMaxWords : Nat := 2 ^ 57

/-- BOOL_WIDTH (R5, 92 D7). -/
def Config.boolWidth : Nat := 1

/-- CHAR_WIDTH (R5, 92 D7). -/
def Config.charWidth : Nat := 16

/-- HALF_ORDER (R5, 92 D9). -/
def Config.halfOrder : HalfOrder := .lowFirst

end Sys2Proof
end

