-- ==== Sys2Proof/Syntax.lean ====
section
/-! DEFINITION. The command frame of spec/30_encoding.md R80 and the sixty instructions of its opcode map (R85), one
constructor for each row of spec/opcode_table.json, with the operands the row's commands use, assembled as R82 and R83
say: signed fields as integers. -/

namespace Sys2Proof

/-- "A command is one frame of five fields, presented together" (30_encoding.md R80). -/
structure Frame where
  /-- Control word (R81). -/
  cw : Word
  /-- Data operand: the value to write, the capacity, or the position. -/
  a : DWord
  /-- bitIndex or offset, a signed two's-complement integer. -/
  idx : Word
  /-- count, a signed two's-complement integer. -/
  cnt : Word
  /-- Element count of the operand buffer, an unsigned integer. -/
  blen : Word
deriving DecidableEq, Repr

/-- The eleven scalar types, in the order of 30_encoding.md R84. -/
inductive ScalarTy where
  | bool
  | byte
  | sbyte
  | char
  | short
  | ushort
  | int
  | uint
  | float
  | long
  | ulong
deriving DecidableEq, Repr

/-- The form of a scalar command (30_encoding.md R81 bit F, R82): the whole value, or the field form with an explicit
bit index and count. -/
inductive Form where
  | whole
  | field (idx cnt : Int)
deriving DecidableEq, Repr

/-- The operand buffer an array command names (30_encoding.md R81 bit BP, R83): absent, or present with BLEN elements. -/
inductive BufArg where
  | null
  | present (blen : Nat)
deriving DecidableEq, Repr

/-- The instruction set: one constructor per row of spec/opcode_table.json, in the table's order. A `WR` carries the
pattern A (R82), `INITC` and `SETPOS` carry A read as a signed integer (R83). -/
inductive Instr where
  | init
  | initc (cap : Int)
  | close
  | flush
  | getpos
  | setpos (p : Int)
  | getlen
  | len8
  | len16
  | len32
  | len64
  | canread
  | canwrite
  | canseek
  | cansetlen
  | canflush
  | wrBool (a : DWord) (f : Form)
  | wrByte (a : DWord) (f : Form)
  | wrSbyte (a : DWord) (f : Form)
  | wrChar (a : DWord) (f : Form)
  | wrShort (a : DWord) (f : Form)
  | wrUshort (a : DWord) (f : Form)
  | wrInt (a : DWord) (f : Form)
  | wrUint (a : DWord) (f : Form)
  | wrFloat (a : DWord) (f : Form)
  | wrLong (a : DWord) (f : Form)
  | wrUlong (a : DWord) (f : Form)
  | rdBool (f : Form)
  | rdByte (f : Form)
  | rdSbyte (f : Form)
  | rdChar (f : Form)
  | rdShort (f : Form)
  | rdUshort (f : Form)
  | rdInt (f : Form)
  | rdUint (f : Form)
  | rdFloat (f : Form)
  | rdLong (f : Form)
  | rdUlong (f : Form)
  | wraBool (b : BufArg) (off cnt : Int)
  | wraByte (b : BufArg) (off cnt : Int)
  | wraSbyte (b : BufArg) (off cnt : Int)
  | wraChar (b : BufArg) (off cnt : Int)
  | wraShort (b : BufArg) (off cnt : Int)
  | wraUshort (b : BufArg) (off cnt : Int)
  | wraInt (b : BufArg) (off cnt : Int)
  | wraUint (b : BufArg) (off cnt : Int)
  | wraFloat (b : BufArg) (off cnt : Int)
  | wraLong (b : BufArg) (off cnt : Int)
  | wraUlong (b : BufArg) (off cnt : Int)
  | rdaBool (b : BufArg) (off cnt : Int)
  | rdaByte (b : BufArg) (off cnt : Int)
  | rdaSbyte (b : BufArg) (off cnt : Int)
  | rdaChar (b : BufArg) (off cnt : Int)
  | rdaShort (b : BufArg) (off cnt : Int)
  | rdaUshort (b : BufArg) (off cnt : Int)
  | rdaInt (b : BufArg) (off cnt : Int)
  | rdaUint (b : BufArg) (off cnt : Int)
  | rdaFloat (b : BufArg) (off cnt : Int)
  | rdaLong (b : BufArg) (off cnt : Int)
  | rdaUlong (b : BufArg) (off cnt : Int)
deriving DecidableEq, Repr

/-- The `WR.<ty> v` or `WR.<ty> v, idx, cnt` instruction of a type (30_encoding.md R85, R92): the eleven
constructors wrBool, wrByte, wrSbyte, wrChar, wrShort, wrUshort, wrInt, wrUint, wrFloat, wrLong, wrUlong. -/
def Instr.wr (ty : ScalarTy) (a : DWord) (f : Form) : Instr :=
  match ty with
  | .bool => .wrBool a f
  | .byte => .wrByte a f
  | .sbyte => .wrSbyte a f
  | .char => .wrChar a f
  | .short => .wrShort a f
  | .ushort => .wrUshort a f
  | .int => .wrInt a f
  | .uint => .wrUint a f
  | .float => .wrFloat a f
  | .long => .wrLong a f
  | .ulong => .wrUlong a f

/-- The `RD.<ty>` or `RD.<ty> idx, cnt` instruction of a type (30_encoding.md R85, R92): the eleven
constructors rdBool, rdByte, rdSbyte, rdChar, rdShort, rdUshort, rdInt, rdUint, rdFloat, rdLong, rdUlong. -/
def Instr.rd (ty : ScalarTy) (f : Form) : Instr :=
  match ty with
  | .bool => .rdBool f
  | .byte => .rdByte f
  | .sbyte => .rdSbyte f
  | .char => .rdChar f
  | .short => .rdShort f
  | .ushort => .rdUshort f
  | .int => .rdInt f
  | .uint => .rdUint f
  | .float => .rdFloat f
  | .long => .rdLong f
  | .ulong => .rdUlong f

/-- The `WRA.<ty> buf, off, cnt` instruction of a type (30_encoding.md R85, R92): the eleven
constructors wraBool, wraByte, wraSbyte, wraChar, wraShort, wraUshort, wraInt, wraUint, wraFloat, wraLong, wraUlong. -/
def Instr.wra (ty : ScalarTy) (b : BufArg) (off cnt : Int) : Instr :=
  match ty with
  | .bool => .wraBool b off cnt
  | .byte => .wraByte b off cnt
  | .sbyte => .wraSbyte b off cnt
  | .char => .wraChar b off cnt
  | .short => .wraShort b off cnt
  | .ushort => .wraUshort b off cnt
  | .int => .wraInt b off cnt
  | .uint => .wraUint b off cnt
  | .float => .wraFloat b off cnt
  | .long => .wraLong b off cnt
  | .ulong => .wraUlong b off cnt

/-- The `RDA.<ty> buf, off, cnt` instruction of a type (30_encoding.md R85, R92): the eleven
constructors rdaBool, rdaByte, rdaSbyte, rdaChar, rdaShort, rdaUshort, rdaInt, rdaUint, rdaFloat, rdaLong, rdaUlong. -/
def Instr.rda (ty : ScalarTy) (b : BufArg) (off cnt : Int) : Instr :=
  match ty with
  | .bool => .rdaBool b off cnt
  | .byte => .rdaByte b off cnt
  | .sbyte => .rdaSbyte b off cnt
  | .char => .rdaChar b off cnt
  | .short => .rdaShort b off cnt
  | .ushort => .rdaUshort b off cnt
  | .int => .rdaInt b off cnt
  | .uint => .rdaUint b off cnt
  | .float => .rdaFloat b off cnt
  | .long => .rdaLong b off cnt
  | .ulong => .rdaUlong b off cnt

/-- The mnemonic of an instruction's row, letter for letter (spec/opcode_table.json). -/
def Instr.mnemonic : Instr → String
  | .init => "INIT"
  | .initc _ => "INITC"
  | .close => "CLOSE"
  | .flush => "FLUSH"
  | .getpos => "GETPOS"
  | .setpos _ => "SETPOS"
  | .getlen => "GETLEN"
  | .len8 => "LEN8"
  | .len16 => "LEN16"
  | .len32 => "LEN32"
  | .len64 => "LEN64"
  | .canread => "CANREAD"
  | .canwrite => "CANWRITE"
  | .canseek => "CANSEEK"
  | .cansetlen => "CANSETLEN"
  | .canflush => "CANFLUSH"
  | .wrBool _ _ => "WR.bool"
  | .wrByte _ _ => "WR.byte"
  | .wrSbyte _ _ => "WR.sbyte"
  | .wrChar _ _ => "WR.char"
  | .wrShort _ _ => "WR.short"
  | .wrUshort _ _ => "WR.ushort"
  | .wrInt _ _ => "WR.int"
  | .wrUint _ _ => "WR.uint"
  | .wrFloat _ _ => "WR.float"
  | .wrLong _ _ => "WR.long"
  | .wrUlong _ _ => "WR.ulong"
  | .rdBool _ => "RD.bool"
  | .rdByte _ => "RD.byte"
  | .rdSbyte _ => "RD.sbyte"
  | .rdChar _ => "RD.char"
  | .rdShort _ => "RD.short"
  | .rdUshort _ => "RD.ushort"
  | .rdInt _ => "RD.int"
  | .rdUint _ => "RD.uint"
  | .rdFloat _ => "RD.float"
  | .rdLong _ => "RD.long"
  | .rdUlong _ => "RD.ulong"
  | .wraBool _ _ _ => "WRA.bool"
  | .wraByte _ _ _ => "WRA.byte"
  | .wraSbyte _ _ _ => "WRA.sbyte"
  | .wraChar _ _ _ => "WRA.char"
  | .wraShort _ _ _ => "WRA.short"
  | .wraUshort _ _ _ => "WRA.ushort"
  | .wraInt _ _ _ => "WRA.int"
  | .wraUint _ _ _ => "WRA.uint"
  | .wraFloat _ _ _ => "WRA.float"
  | .wraLong _ _ _ => "WRA.long"
  | .wraUlong _ _ _ => "WRA.ulong"
  | .rdaBool _ _ _ => "RDA.bool"
  | .rdaByte _ _ _ => "RDA.byte"
  | .rdaSbyte _ _ _ => "RDA.sbyte"
  | .rdaChar _ _ _ => "RDA.char"
  | .rdaShort _ _ _ => "RDA.short"
  | .rdaUshort _ _ _ => "RDA.ushort"
  | .rdaInt _ _ _ => "RDA.int"
  | .rdaUint _ _ _ => "RDA.uint"
  | .rdaFloat _ _ _ => "RDA.float"
  | .rdaLong _ _ _ => "RDA.long"
  | .rdaUlong _ _ _ => "RDA.ulong"

end Sys2Proof
end

