-- ==== Sys2Proof/WellFormed.lean ====
section
/-! DEFINITION. Which instructions a command frame can carry: the ranges of its signed and unsigned fields
(spec/30_encoding.md R80, R83). Nothing else is checked of an instruction before it runs: `Decode` yields well-formed
instructions only, and the meanings are defined on all. -/

namespace Sys2Proof

/-- Fits a signed 32-bit field: IDX, CNT (R80). -/
def fitsI32 (v : Int) : Bool := decide (-(2 ^ 31) ≤ v ∧ v < 2 ^ 31)

/-- Fits A read as a signed 64-bit integer (R83). -/
def fitsI64 (v : Int) : Bool := decide (-(2 ^ 63) ≤ v ∧ v < 2 ^ 63)

/-- Fits the unsigned 32-bit field BLEN (R80). -/
def fitsU32 (v : Nat) : Bool := decide (v < 2 ^ 32)

/-- The operands of a field form fit IDX and CNT. -/
def Form.wellFormed : Form → Bool
  | .whole => true
  | .field idx cnt => fitsI32 idx && fitsI32 cnt

/-- The element count of a present buffer fits BLEN. -/
def BufArg.wellFormed : BufArg → Bool
  | .null => true
  | .present blen => fitsU32 blen

/-- The operands of an array command fit BLEN, IDX and CNT. -/
def arrayWellFormed (b : BufArg) (off cnt : Int) : Bool := b.wellFormed && fitsI32 off && fitsI32 cnt

/-- Every operand of the instruction fits its field of the frame (R80, R83). -/
def Instr.wellFormed : Instr → Bool
  | .init => true
  | .initc cap => fitsI64 cap
  | .close => true
  | .flush => true
  | .getpos => true
  | .setpos p => fitsI64 p
  | .getlen => true
  | .len8 => true
  | .len16 => true
  | .len32 => true
  | .len64 => true
  | .canread => true
  | .canwrite => true
  | .canseek => true
  | .cansetlen => true
  | .canflush => true
  | .wrBool _ f => f.wellFormed
  | .wrByte _ f => f.wellFormed
  | .wrSbyte _ f => f.wellFormed
  | .wrChar _ f => f.wellFormed
  | .wrShort _ f => f.wellFormed
  | .wrUshort _ f => f.wellFormed
  | .wrInt _ f => f.wellFormed
  | .wrUint _ f => f.wellFormed
  | .wrFloat _ f => f.wellFormed
  | .wrLong _ f => f.wellFormed
  | .wrUlong _ f => f.wellFormed
  | .rdBool f => f.wellFormed
  | .rdByte f => f.wellFormed
  | .rdSbyte f => f.wellFormed
  | .rdChar f => f.wellFormed
  | .rdShort f => f.wellFormed
  | .rdUshort f => f.wellFormed
  | .rdInt f => f.wellFormed
  | .rdUint f => f.wellFormed
  | .rdFloat f => f.wellFormed
  | .rdLong f => f.wellFormed
  | .rdUlong f => f.wellFormed
  | .wraBool b off cnt => arrayWellFormed b off cnt
  | .wraByte b off cnt => arrayWellFormed b off cnt
  | .wraSbyte b off cnt => arrayWellFormed b off cnt
  | .wraChar b off cnt => arrayWellFormed b off cnt
  | .wraShort b off cnt => arrayWellFormed b off cnt
  | .wraUshort b off cnt => arrayWellFormed b off cnt
  | .wraInt b off cnt => arrayWellFormed b off cnt
  | .wraUint b off cnt => arrayWellFormed b off cnt
  | .wraFloat b off cnt => arrayWellFormed b off cnt
  | .wraLong b off cnt => arrayWellFormed b off cnt
  | .wraUlong b off cnt => arrayWellFormed b off cnt
  | .rdaBool b off cnt => arrayWellFormed b off cnt
  | .rdaByte b off cnt => arrayWellFormed b off cnt
  | .rdaSbyte b off cnt => arrayWellFormed b off cnt
  | .rdaChar b off cnt => arrayWellFormed b off cnt
  | .rdaShort b off cnt => arrayWellFormed b off cnt
  | .rdaUshort b off cnt => arrayWellFormed b off cnt
  | .rdaInt b off cnt => arrayWellFormed b off cnt
  | .rdaUint b off cnt => arrayWellFormed b off cnt
  | .rdaFloat b off cnt => arrayWellFormed b off cnt
  | .rdaLong b off cnt => arrayWellFormed b off cnt
  | .rdaUlong b off cnt => arrayWellFormed b off cnt

end Sys2Proof
end

