-- ==== Sys2Proof/Decode.lean ====
section
/-! DEFINITION. Decoding a command frame (spec/30_encoding.md R81 to R88) and encoding an instruction. Selection looks at
the control word only (R87); the operand fields are then assembled as R82 and R83 say. A reserved control word is
rejected by the clause of R88 it falls under. -/

namespace Sys2Proof

/-- OP = CW[7:0] (R81). -/
def cwOp (cw : Word) : Nat := (cw.extractLsb' 0 8).toNat

/-- TY = CW[11:8] (R81). -/
def cwTy (cw : Word) : Nat := (cw.extractLsb' 8 4).toNat

/-- F = CW[12] (R81). -/
def cwForm (cw : Word) : Bool := cw.getLsbD 12

/-- BP = CW[13] (R81). -/
def cwBuf (cw : Word) : Bool := cw.getLsbD 13

/-- The reserved bits CW[31:14], which must be 0 (R81). -/
def cwHigh (cw : Word) : Nat := (cw.extractLsb' 14 18).toNat

/-- The clauses of R88 under which a control word is reserved. -/
inductive Reserved where
  /-- CW[31:14] is not 0. -/
  | highBits
  /-- OP is not in the table of R85. -/
  | unknownOp
  /-- OP is 0x10 to 0x13 and TY is above 10. -/
  | unknownType
  /-- OP is not 0x10 to 0x13 and TY is not 0. -/
  | typeNotZero
  /-- F = 1 and OP is not 0x10 or 0x11. -/
  | formNotZero
  /-- BP = 1 and OP is not 0x12 or 0x13. -/
  | bufNotZero
deriving DecidableEq, Repr

/-- The type codes of R84. -/
def tyOfCode : Nat → Option ScalarTy
  | 0 => some .bool
  | 1 => some .byte
  | 2 => some .sbyte
  | 3 => some .char
  | 4 => some .short
  | 5 => some .ushort
  | 6 => some .int
  | 7 => some .uint
  | 8 => some .float
  | 9 => some .long
  | 10 => some .ulong
  | _ => none

/-- The type codes of R84, the other way. -/
def codeOfTy : ScalarTy → Nat
  | .bool => 0
  | .byte => 1
  | .sbyte => 2
  | .char => 3
  | .short => 4
  | .ushort => 5
  | .int => 6
  | .uint => 7
  | .float => 8
  | .long => 9
  | .ulong => 10

/-- Operand assembly of a scalar command: F = 0 ignores IDX and CNT, F = 1 reads them sign-extended (R82). -/
def formOf (f : Frame) : Form :=
  if cwForm f.cw then .field f.idx.toInt f.cnt.toInt else .whole

/-- Operand assembly of an array command: the buffer is present iff BP = 1, and then has BLEN elements (R83). -/
def bufArgOf (f : Frame) : BufArg :=
  if cwBuf f.cw then .present f.blen.toNat else .null

/-- The sixteen commands that take no type (R85), with the operand `A` of `INITC` and `SETPOS` read as a signed 64-bit
integer (R83). -/
def untypedOf (op : Nat) (f : Frame) : Option Instr :=
  match op with
  | 0x01 => some .init
  | 0x02 => some (.initc f.a.toInt)
  | 0x03 => some .close
  | 0x04 => some .flush
  | 0x20 => some .getpos
  | 0x21 => some (.setpos f.a.toInt)
  | 0x22 => some .getlen
  | 0x23 => some .len8
  | 0x24 => some .len16
  | 0x25 => some .len32
  | 0x26 => some .len64
  | 0x30 => some .canread
  | 0x31 => some .canwrite
  | 0x32 => some .canseek
  | 0x33 => some .cansetlen
  | 0x34 => some .canflush
  | _ => none

/-- A typed command: the type code must be one of R84. -/
def typedOf (f : Frame) (k : ScalarTy → Instr) : Except Reserved Instr :=
  match tyOfCode (cwTy f.cw) with
  | some ty => .ok (k ty)
  | none => .error .unknownType

/-- A scalar command, WR or RD: BP must be 0 (R81, R88). -/
def scalarOf (f : Frame) (k : ScalarTy → Instr) : Except Reserved Instr :=
  if cwBuf f.cw then .error .bufNotZero else typedOf f k

/-- An array command, WRA or RDA: F must be 0 (R81, R88). -/
def arrayOf (f : Frame) (k : ScalarTy → Instr) : Except Reserved Instr :=
  if cwForm f.cw then .error .formNotZero else typedOf f k

/-- Decoding is total: every control word is exactly one instruction with its F or BP bit, or reserved (R87, R88). -/
def decode (f : Frame) : Except Reserved Instr :=
  if cwHigh f.cw ≠ 0 then .error .highBits
  else match cwOp f.cw with
  | 0x10 => scalarOf f fun ty => .wr ty f.a (formOf f)
  | 0x11 => scalarOf f fun ty => .rd ty (formOf f)
  | 0x12 => arrayOf f fun ty => .wra ty (bufArgOf f) f.idx.toInt f.cnt.toInt
  | 0x13 => arrayOf f fun ty => .rda ty (bufArgOf f) f.idx.toInt f.cnt.toInt
  | op =>
    match untypedOf op f with
    | none => .error .unknownOp
    | some i =>
      if cwTy f.cw ≠ 0 then .error .typeNotZero
      else if cwForm f.cw then .error .formNotZero
      else if cwBuf f.cw then .error .bufNotZero
      else .ok i

/-- R88 as it is written: the control words that are reserved. -/
abbrev ReservedWord (cw : Word) : Prop :=
  cwHigh cw ≠ 0
  ∨ ¬ (cwOp cw ∈ [0x01, 0x02, 0x03, 0x04, 0x10, 0x11, 0x12, 0x13, 0x20, 0x21, 0x22, 0x23, 0x24, 0x25, 0x26,
        0x30, 0x31, 0x32, 0x33, 0x34])
  ∨ (cwOp cw ∈ [0x10, 0x11, 0x12, 0x13] ∧ 10 < cwTy cw)
  ∨ (¬ cwOp cw ∈ [0x10, 0x11, 0x12, 0x13] ∧ cwTy cw ≠ 0)
  ∨ (cwForm cw = true ∧ ¬ cwOp cw ∈ [0x10, 0x11])
  ∨ (cwBuf cw = true ∧ ¬ cwOp cw ∈ [0x12, 0x13])

/-- A frame read from one string of bits, bit 0 the least significant bit of CW, in the order of R80's table: CW, A, IDX,
CNT, BLEN. DESIGN CHOICE (log entry 14): R80 says the fields are "presented together", not in which order. -/
def Frame.ofBits (w : Nat) : Frame :=
  { cw := BitVec.ofNat 32 w
    a := BitVec.ofNat 64 (w >>> 32)
    idx := BitVec.ofNat 32 (w >>> 96)
    cnt := BitVec.ofNat 32 (w >>> 128)
    blen := BitVec.ofNat 32 (w >>> 160) }

/-- The frame of an instruction whose table row has `nbits` bits with value `w`: every bit above them is 0. -/
def Frame.ofTableWord (nbits w : Nat) : Frame := Frame.ofBits (w % 2 ^ nbits)

/-- What the decoder reads from an instruction numbered as spec/opcode_table.json numbers its bits. -/
def decodeTableWord (nbits w : Nat) : Option Instr :=
  match decode (Frame.ofTableWord nbits w) with
  | .ok i => some i
  | .error _ => none

/-- The control word of R81 from its fields. -/
def cwOf (op ty : Nat) (f bp : Bool) : Word := BitVec.ofNat 32 (op + 256 * ty + 4096 * f.toNat + 8192 * bp.toNat)

/-- A frame that uses CW and A only; the fields a command does not use are 0 (any value would do, R80). -/
def frameA (cw : Word) (a : DWord) : Frame := { cw := cw, a := a, idx := 0, cnt := 0, blen := 0 }

/-- The frame of a scalar command (R81, R82). -/
def scalarFrame (op ty : Nat) (a : DWord) : Form → Frame
  | .whole => frameA (cwOf op ty false false) a
  | .field idx cnt =>
    { cw := cwOf op ty true false, a := a, idx := BitVec.ofInt 32 idx, cnt := BitVec.ofInt 32 cnt, blen := 0 }

/-- The frame of an array command (R81, R83). -/
def arrayFrame (op ty : Nat) (b : BufArg) (off cnt : Int) : Frame :=
  match b with
  | .null => { cw := cwOf op ty false false, a := 0, idx := BitVec.ofInt 32 off, cnt := BitVec.ofInt 32 cnt, blen := 0 }
  | .present blen =>
    { cw := cwOf op ty false true, a := 0, idx := BitVec.ofInt 32 off, cnt := BitVec.ofInt 32 cnt,
      blen := BitVec.ofNat 32 blen }

/-- The frame that stands for an instruction (R81 to R86, R92). -/
def encode : Instr → Frame
  | .init => frameA (cwOf 0x01 0 false false) 0
  | .initc v => frameA (cwOf 0x02 0 false false) (BitVec.ofInt 64 v)
  | .close => frameA (cwOf 0x03 0 false false) 0
  | .flush => frameA (cwOf 0x04 0 false false) 0
  | .getpos => frameA (cwOf 0x20 0 false false) 0
  | .setpos v => frameA (cwOf 0x21 0 false false) (BitVec.ofInt 64 v)
  | .getlen => frameA (cwOf 0x22 0 false false) 0
  | .len8 => frameA (cwOf 0x23 0 false false) 0
  | .len16 => frameA (cwOf 0x24 0 false false) 0
  | .len32 => frameA (cwOf 0x25 0 false false) 0
  | .len64 => frameA (cwOf 0x26 0 false false) 0
  | .canread => frameA (cwOf 0x30 0 false false) 0
  | .canwrite => frameA (cwOf 0x31 0 false false) 0
  | .canseek => frameA (cwOf 0x32 0 false false) 0
  | .cansetlen => frameA (cwOf 0x33 0 false false) 0
  | .canflush => frameA (cwOf 0x34 0 false false) 0
  | .wrBool a f => scalarFrame 0x10 0 a f
  | .wrByte a f => scalarFrame 0x10 1 a f
  | .wrSbyte a f => scalarFrame 0x10 2 a f
  | .wrChar a f => scalarFrame 0x10 3 a f
  | .wrShort a f => scalarFrame 0x10 4 a f
  | .wrUshort a f => scalarFrame 0x10 5 a f
  | .wrInt a f => scalarFrame 0x10 6 a f
  | .wrUint a f => scalarFrame 0x10 7 a f
  | .wrFloat a f => scalarFrame 0x10 8 a f
  | .wrLong a f => scalarFrame 0x10 9 a f
  | .wrUlong a f => scalarFrame 0x10 10 a f
  | .rdBool f => scalarFrame 0x11 0 0 f
  | .rdByte f => scalarFrame 0x11 1 0 f
  | .rdSbyte f => scalarFrame 0x11 2 0 f
  | .rdChar f => scalarFrame 0x11 3 0 f
  | .rdShort f => scalarFrame 0x11 4 0 f
  | .rdUshort f => scalarFrame 0x11 5 0 f
  | .rdInt f => scalarFrame 0x11 6 0 f
  | .rdUint f => scalarFrame 0x11 7 0 f
  | .rdFloat f => scalarFrame 0x11 8 0 f
  | .rdLong f => scalarFrame 0x11 9 0 f
  | .rdUlong f => scalarFrame 0x11 10 0 f
  | .wraBool b off cnt => arrayFrame 0x12 0 b off cnt
  | .wraByte b off cnt => arrayFrame 0x12 1 b off cnt
  | .wraSbyte b off cnt => arrayFrame 0x12 2 b off cnt
  | .wraChar b off cnt => arrayFrame 0x12 3 b off cnt
  | .wraShort b off cnt => arrayFrame 0x12 4 b off cnt
  | .wraUshort b off cnt => arrayFrame 0x12 5 b off cnt
  | .wraInt b off cnt => arrayFrame 0x12 6 b off cnt
  | .wraUint b off cnt => arrayFrame 0x12 7 b off cnt
  | .wraFloat b off cnt => arrayFrame 0x12 8 b off cnt
  | .wraLong b off cnt => arrayFrame 0x12 9 b off cnt
  | .wraUlong b off cnt => arrayFrame 0x12 10 b off cnt
  | .rdaBool b off cnt => arrayFrame 0x13 0 b off cnt
  | .rdaByte b off cnt => arrayFrame 0x13 1 b off cnt
  | .rdaSbyte b off cnt => arrayFrame 0x13 2 b off cnt
  | .rdaChar b off cnt => arrayFrame 0x13 3 b off cnt
  | .rdaShort b off cnt => arrayFrame 0x13 4 b off cnt
  | .rdaUshort b off cnt => arrayFrame 0x13 5 b off cnt
  | .rdaInt b off cnt => arrayFrame 0x13 6 b off cnt
  | .rdaUint b off cnt => arrayFrame 0x13 7 b off cnt
  | .rdaFloat b off cnt => arrayFrame 0x13 8 b off cnt
  | .rdaLong b off cnt => arrayFrame 0x13 9 b off cnt
  | .rdaUlong b off cnt => arrayFrame 0x13 10 b off cnt

/-- The value those bits have in an instruction's row (R86, the "match" of spec/opcode_table.json). -/
def rowMatch : Instr → Word
  | .init => 0x00000001#32
  | .initc _ => 0x00000002#32
  | .close => 0x00000003#32
  | .flush => 0x00000004#32
  | .getpos => 0x00000020#32
  | .setpos _ => 0x00000021#32
  | .getlen => 0x00000022#32
  | .len8 => 0x00000023#32
  | .len16 => 0x00000024#32
  | .len32 => 0x00000025#32
  | .len64 => 0x00000026#32
  | .canread => 0x00000030#32
  | .canwrite => 0x00000031#32
  | .canseek => 0x00000032#32
  | .cansetlen => 0x00000033#32
  | .canflush => 0x00000034#32
  | .wrBool _ _ => 0x00000010#32
  | .wrByte _ _ => 0x00000110#32
  | .wrSbyte _ _ => 0x00000210#32
  | .wrChar _ _ => 0x00000310#32
  | .wrShort _ _ => 0x00000410#32
  | .wrUshort _ _ => 0x00000510#32
  | .wrInt _ _ => 0x00000610#32
  | .wrUint _ _ => 0x00000710#32
  | .wrFloat _ _ => 0x00000810#32
  | .wrLong _ _ => 0x00000910#32
  | .wrUlong _ _ => 0x00000a10#32
  | .rdBool _ => 0x00000011#32
  | .rdByte _ => 0x00000111#32
  | .rdSbyte _ => 0x00000211#32
  | .rdChar _ => 0x00000311#32
  | .rdShort _ => 0x00000411#32
  | .rdUshort _ => 0x00000511#32
  | .rdInt _ => 0x00000611#32
  | .rdUint _ => 0x00000711#32
  | .rdFloat _ => 0x00000811#32
  | .rdLong _ => 0x00000911#32
  | .rdUlong _ => 0x00000a11#32
  | .wraBool _ _ _ => 0x00000012#32
  | .wraByte _ _ _ => 0x00000112#32
  | .wraSbyte _ _ _ => 0x00000212#32
  | .wraChar _ _ _ => 0x00000312#32
  | .wraShort _ _ _ => 0x00000412#32
  | .wraUshort _ _ _ => 0x00000512#32
  | .wraInt _ _ _ => 0x00000612#32
  | .wraUint _ _ _ => 0x00000712#32
  | .wraFloat _ _ _ => 0x00000812#32
  | .wraLong _ _ _ => 0x00000912#32
  | .wraUlong _ _ _ => 0x00000a12#32
  | .rdaBool _ _ _ => 0x00000013#32
  | .rdaByte _ _ _ => 0x00000113#32
  | .rdaSbyte _ _ _ => 0x00000213#32
  | .rdaChar _ _ _ => 0x00000313#32
  | .rdaShort _ _ _ => 0x00000413#32
  | .rdaUshort _ _ _ => 0x00000513#32
  | .rdaInt _ _ _ => 0x00000613#32
  | .rdaUint _ _ _ => 0x00000713#32
  | .rdaFloat _ _ _ => 0x00000813#32
  | .rdaLong _ _ _ => 0x00000913#32
  | .rdaUlong _ _ _ => 0x00000a13#32

/-- The bits of CW that select an instruction's row: all, or all but F, or all but BP (R86). -/
def rowMask : Instr → Word
  | .init | .close | .flush | .getpos | .getlen | .len8 | .len16 | .len32 | .len64
  | .canread | .canwrite | .canseek | .cansetlen | .canflush | .initc _ | .setpos _ => 0xFFFFFFFF#32
  | .wrBool .. | .wrByte .. | .wrSbyte .. | .wrChar .. | .wrShort .. | .wrUshort ..
  | .wrInt .. | .wrUint .. | .wrFloat .. | .wrLong .. | .wrUlong ..
  | .rdBool .. | .rdByte .. | .rdSbyte .. | .rdChar .. | .rdShort .. | .rdUshort ..
  | .rdInt .. | .rdUint .. | .rdFloat .. | .rdLong .. | .rdUlong .. => 0xFFFFEFFF#32
  | .wraBool .. | .wraByte .. | .wraSbyte .. | .wraChar .. | .wraShort .. | .wraUshort ..
  | .wraInt .. | .wraUint .. | .wraFloat .. | .wraLong .. | .wraUlong ..
  | .rdaBool .. | .rdaByte .. | .rdaSbyte .. | .rdaChar .. | .rdaShort .. | .rdaUshort ..
  | .rdaInt .. | .rdaUint .. | .rdaFloat .. | .rdaLong .. | .rdaUlong .. => 0xFFFFDFFF#32

end Sys2Proof
end

