-- ==== Sys2Proof/Machine/State.lean ====
section
/-! DEFINITION. The state of the BitStream unit: the six components of spec/10_state.md R20, and beside them what one
step of the model needs of the host (the frames it will present, the operand buffer, the responses it has taken) and the
parameter MAX_WORDS. Plain data throughout. -/

namespace Sys2Proof.Machine

/-- The statuses of a response (30_encoding.md R91, 60_exceptions.md R250). Code 6 is never produced. -/
inductive Status where
  | ok
  | closedStream
  | invalidArgument
  | nullArgument
  | outOfRange
  | exhausted
  | illegalCommand
deriving DecidableEq, Repr

/-- The response frame (30_encoding.md R90). -/
structure Response where
  /-- ST, as a name; its 3-bit code is `Status.code`. -/
  st : Status
  /-- V: the scalar read, the position, a length, or a flag. -/
  v : DWord
  /-- N: the count of bits read. -/
  n : DWord
deriving DecidableEq, Repr

/-- What the host presents for one command: the frame (30_encoding.md R80) and the operand buffer it refers to
(43_array.md R205), element by element; an element past the end of the list is 0 (log entry 9). -/
structure Command where
  frame : Frame
  buf : List DWord
deriving DecidableEq, Repr

/-- What can reach the unit from outside: a command, or a hardware reset between commands (70_reset_and_hazards.md R280). -/
inductive HostEvent where
  | command (c : Command)
  | reset
deriving DecidableEq, Repr

/-- All that the host observes of one command: the response and the operand buffer as the command left it (00_scope.md R12). -/
structure Answer where
  response : Response
  buf : List DWord
deriving DecidableEq, Repr

structure State where
  /-- `W`: the backing store as (stream byte, value) cells; stream byte k is bits 31-8(k mod 4) .. 24-8(k mod 4) of
  `W[k div 4]` (20_memory.md R52(a)); an unlisted byte reads 0 (log entries 6, 7). -/
  mem : List Host.Cell
  /-- `WC`: number of allocated words (10_state.md R22). -/
  wc : Nat
  /-- `LEN`: number of valid bits (10_state.md R23). -/
  len : Nat
  /-- `WI`: the cursor's word index (10_state.md R24). -/
  wi : Nat
  /-- `BO`: the cursor's bit offset within the word (10_state.md R24). -/
  bo : Nat
  /-- `OPEN` (10_state.md R26). -/
  isOpen : Bool
  /-- MAX_WORDS (00_scope.md R5): a parameter, changed by no step (log entry 5). -/
  maxWords : Nat
  /-- What the host will present, oldest first (00_scope.md R11; log entry 1). -/
  pending : List HostEvent
  /-- The operand buffer of the command being executed, or of the last one (43_array.md R205; log entry 9). -/
  buf : List DWord
  /-- The answers given so far, oldest first (00_scope.md R12; log entry 10). -/
  answers : List Answer
deriving DecidableEq, Repr

/-- The ways the machine stops. The unit's own failures are no stops: they are statuses of the response. -/
inductive Fault where
  /-- Raised by a read of `W[index]` with `index >= WC`, a word that does not exist (00_scope.md R7). Safe: the spec
  defines no such access, and no state with the invariants of 10_state.md R27 makes one (log entry 8). -/
  | absentWord (index : Nat)
deriving DecidableEq, Repr

/-- The ways an instruction has no meaning. -/
inductive Refusal where
  /-- Raised by an arm of `exec` that has no meaning yet; no arm of this model does. Safe. -/
  | notModelled (mnemonic : String)
deriving DecidableEq, Repr

/-- The machine right after reset (10_state.md R37, 70_reset_and_hazards.md R280): the six components as the spec says;
the model's own fields as log entries 1, 5, 9 and 10 say (DESIGN CHOICE). -/
def State.reset : State where
  mem := []
  wc := Config.defaultCapWords
  len := 0
  wi := 0
  bo := 0
  isOpen := true
  maxWords := Config.resetMaxWords
  pending := []
  buf := []
  answers := []

end Sys2Proof.Machine
end

