-- ==== Sys2Proof/Machine/Operands.lean ====
section
/-! DEFINITION. Operand assembly and argument validation: the widths of the types (spec/30_encoding.md R84), the index
and count of each form (R82), the checks of the scalar commands (40_bitfield_primitives.md R127), of the array commands
(43_array.md R180, R193), of SETPOS (44_position_length.md R211) and of INITC (45_lifecycle_flags.md R231). All checks
are over the mathematical integers (00_scope.md R8). -/

namespace Sys2Proof.Machine

/-- `width(ty)` (30_encoding.md R84). -/
def width : ScalarTy → Nat
  | .bool => Config.boolWidth
  | .byte => 8
  | .sbyte => 8
  | .char => Config.charWidth
  | .short => 16
  | .ushort => 16
  | .int => 32
  | .uint => 32
  | .float => 32
  | .long => 64
  | .ulong => 64

/-- `bitIndex` of a scalar command (30_encoding.md R82). -/
def fieldIndex : Form → Int
  | .whole => 0
  | .field idx _ => idx

/-- `count` of a scalar command on a type of width `w` (30_encoding.md R82). -/
def fieldCount (w : Nat) : Form → Int
  | .whole => w
  | .field _ cnt => cnt

/-- The failing cases of `ValidateField(w, bitIndex, count)` (40_bitfield_primitives.md R127). -/
abbrev FieldInvalid (w : Nat) (bitIndex count : Int) : Prop :=
  bitIndex < 0 ∨ count < 0 ∨ count > w - bitIndex

/-- The failing cases of the array commands' argument checks (43_array.md R180, R193). -/
abbrev ArrayInvalid (bufLen : Nat) (offset count : Int) : Prop :=
  offset < 0 ∨ count < 0 ∨ count > bufLen - offset

/-- The failing case of SETPOS: "Position set outside `[0, Length]`" (44_position_length.md R211, 60_exceptions.md R253). -/
abbrev PositionInvalid (len : Nat) (v : Int) : Prop :=
  v < 0 ∨ v ≥ len + 1

/-- `ceil(n / 2^shift)` by "the idiom `(Length >> shift) + (1 if (Length & (width-1)) != 0 else 0)`"
(44_position_length.md R213, 45_lifecycle_flags.md R231). -/
def roundUp (n shift : Nat) : Nat :=
  (n >>> shift) + (if n &&& (2 ^ shift - 1) ≠ 0 then 1 else 0)

/-- The words `INITC cap` allocates, for a capacity above 0 (45_lifecycle_flags.md R231). -/
def capWords (cap : Int) : Nat := roundUp cap.toNat 5

/-- The four operands of `Split64` (40_bitfield_primitives.md R121): index and count in the low half, index and count in
the high half. -/
structure Halves where
  idx1 : Nat
  cnt1 : Nat
  idx2 : Nat
  cnt2 : Nat
deriving DecidableEq, Repr

/-- `Split64(bitIndex, count)` (40_bitfield_primitives.md R121). -/
def split64 (bitIndex count : Nat) : Halves :=
  let idx1 := if bitIndex < 32 then bitIndex else 0
  let cnt1 := if bitIndex < 32 then min count (32 - bitIndex) else 0
  let idx2 := if bitIndex + count > 32 then (if bitIndex < 32 then 0 else bitIndex - 32) else 0
  let cnt2 := if bitIndex + count > 32 then count - cnt1 else 0
  { idx1, cnt1, idx2, cnt2 }

end Sys2Proof.Machine
end

