-- ==== Sys2Proof/Machine/Ops.lean ====
section
/-! DEFINITION. The named operations over the store and the registers: bytes and words of the backing store
(spec/20_memory.md), `respond` and `raise` (00_scope.md R7, 60_exceptions.md R260), the bit-field primitives
(40_bitfield_primitives.md), creation (45_lifecycle_flags.md), the operand buffer (43_array.md R205) and the element loops
of the array commands. -/

namespace Sys2Proof.Machine

/-! ### The store: bytes, words, bits -/

/-- Stream byte `k` of the store; an unlisted byte is 0 (10_state.md R28, log entry 7). -/
def readByte : List Host.Cell → Nat → Byte
  | [], _ => 0
  | (b, x) :: t, k => if k = b then x else readByte t k

/-- Store `v` as stream byte `k`, keeping the canonical form: rising addresses, no byte listed that reads as unlisted. -/
def writeByte : List Host.Cell → Nat → Byte → List Host.Cell
  | [], k, v => if v = 0 then [] else [(k, v)]
  | (b, x) :: t, k, v =>
    if k < b then (if v = 0 then (b, x) :: t else (k, v) :: (b, x) :: t)
    else if k = b then (if v = 0 then t else (k, v) :: t)
    else (b, x) :: writeByte t k v

/-- Addresses strictly rising from `lo` on, and no listed byte is 0. -/
def memoryWfFrom : Nat → List Host.Cell → Bool
  | _, [] => true
  | lo, (b, x) :: t => decide (lo ≤ b) && decide (x ≠ 0) && memoryWfFrom (b + 1) t

/-- The canonical form of the store: equal stores are equal lists. -/
def Memory.wf (m : List Host.Cell) : Bool := memoryWfFrom 0 m

/-- `W[i]`: its stream bytes `4i .. 4i+3`, the first of them most significant (20_memory.md R52(a)). -/
def readWord (m : List Host.Cell) (i : Nat) : Word :=
  readByte m (4 * i) ++ readByte m (4 * i + 1) ++ readByte m (4 * i + 2) ++ readByte m (4 * i + 3)

/-- `W[i] <- w`, byte by byte (20_memory.md R52(a)). -/
def writeWord (m : List Host.Cell) (i : Nat) (w : Word) : List Host.Cell :=
  writeByte (writeByte (writeByte (writeByte m (4 * i) (w.extractLsb' 24 8))
    (4 * i + 1) (w.extractLsb' 16 8)) (4 * i + 2) (w.extractLsb' 8 8)) (4 * i + 3) (w.extractLsb' 0 8)

/-- "The stream bit at position p ... is bit `31 - (p & 31)` of word `W[p >> 5]`" (20_memory.md R51). -/
def bitAt (m : List Host.Cell) (p : Nat) : Bool := (readWord m (p / 32)).getLsbD (31 - p % 32)

/-- `MemRead(i, 32)`: the word exists for `0 <= i < WC` only (00_scope.md R7). -/
def memRead (s : State) (i : Nat) : Option Word := if i < s.wc then some (readWord s.mem i) else none

/-- `MemWrite(i, 32, w)` (00_scope.md R7). -/
def memWrite (s : State) (i : Nat) (w : Word) : State := { s with mem := writeWord s.mem i w }

/-! ### Registers, responses, failures -/

/-- `pos`, the flat cursor position (00_scope.md R7, 10_state.md R24). -/
def State.pos (s : State) : Nat := s.wi * 32 + s.bo

/-- `MAX_BITS = 32 * MAX_WORDS` (00_scope.md R5). -/
def State.maxBits (s : State) : Nat := Config.wordBits * s.maxWords

/-- Hand a response to the host, with the operand buffer as it now stands (00_scope.md R11, R12). -/
def deliver (r : Response) (s : State) : State := { s with answers := s.answers ++ [⟨r, s.buf⟩] }

/-- `respond(V, N)`: finish the command with status OK (00_scope.md R7). -/
def respond (v : DWord) (n : Nat) (s : State) : State := deliver ⟨.ok, v, BitVec.ofNat 64 n⟩ s

/-- `raise S`: "stop the command, change no state, respond with status S, value 0, count 0" (00_scope.md R7,
60_exceptions.md R260). This is the unit's whole exception entry; there is nothing to return from (R261). -/
def raise (st : Status) (s : State) : State := deliver ⟨st, 0, 0⟩ s

/-- Move the flat cursor to `p`: `WI = p >> 5`, `BO = p & 31` (10_state.md R24, 44_position_length.md R211). -/
def setCursor (p : Nat) (s : State) : State := { s with wi := p >>> 5, bo := p &&& 31 }

/-- A fresh stream of `n` zero words (45_lifecycle_flags.md R230, R231; 10_state.md R37). -/
def create (n : Nat) (s : State) : State :=
  { s with mem := [], wc := n, len := 0, wi := 0, bo := 0, isOpen := true }

/-- The hardware reset event between commands (70_reset_and_hazards.md R280): the unit is in the reset state, no
response is given; what the host holds stays (log entry 4). -/
def hardReset (s : State) : State := create Config.defaultCapWords s

/-- Take the host's next command: it is no longer pending, and its operand buffer is the one in reach (00_scope.md R11,
10_state.md R35). -/
def present (c : Command) (rest : List HostEvent) (s : State) : State := { s with pending := rest, buf := c.buf }

/-! ### The bit-field primitives -/

/-- Entry `n` of the mask table, `2^n - 1`, 0 <= n <= 32 (10_state.md R29). -/
def mask (n : Nat) : Word := BitVec.ofNat 32 (2 ^ n - 1)

/-- `Advance(k)` (40_bitfield_primitives.md R111). -/
def advance (k : Nat) (s : State) : State :=
  if s.bo + k = 32 then { s with wi := s.wi + 1, bo := 0 } else { s with bo := s.bo + k }

/-- Growth: the store gets the cursor's word, as zero, if it does not have it (20_memory.md R59). -/
def grow (s : State) : State :=
  if s.wi ≥ s.wc then { s with wc := s.wi + 1, mem := writeWord s.mem s.wi 0 } else s

/-- A shift by a signed distance: left if it is not negative, logically right otherwise (00_scope.md R7, R113). -/
def shiftBy (w : Word) (d : Int) : Word := if d < 0 then w >>> (-d).toNat else w <<< d.toNat

/-- The bits one step of a primitive moves, `min(freeBits, count)` with `freeBits = 32 - BO` (R113). -/
def chunk (s : State) (count : Nat) : Nat := min (32 - s.bo) count

/-- The word `W[WI]` after one step of `WriteBits`: cleared where it overwrites (R115), then the placed field ORed in (R113). -/
def mergeField (old value : Word) (bitIndex count freeBits : Nat) (overwrite : Bool) : Word :=
  let field := value &&& (mask count <<< bitIndex)
  let placed := shiftBy field ((freeBits : Int) - (bitIndex + count))
  let clr := ~~~ (shiftBy (mask count) ((freeBits : Int) - count))
  (if overwrite then old &&& clr else old) ||| placed

/-- One pass of the loop of `WriteBits` (R113): grow, merge the chunk into `W[WI]`, `LEN <- max(LEN, pos + chunk)`
(R114), advance. -/
def writePass (value : Word) (bitIndex count : Nat) (s : State) : State :=
  let s₁ := grow s
  let w := mergeField (readWord s₁.mem s₁.wi) value bitIndex count (32 - s₁.bo) (decide (s.pos + 1 ≤ s.len))
  advance (chunk s count) { memWrite s₁ s₁.wi w with len := max s.len (s.pos + chunk s count) }

/-- The loop of `WriteBits` (R113, R116: `value` and `bitIndex` stay, `count` falls by the chunk), cut off after `fuel`
passes (log entry 16). -/
def writeLoop (value : Word) (bitIndex : Nat) : Nat → Nat → State → State
  | 0, _, s => s
  | fuel + 1, count, s =>
    if count = 0 then s
    else writeLoop value bitIndex fuel (count - chunk s count) (writePass value bitIndex count s)

/-- `WriteBits(value, bitIndex, count)` (R113). Every pass moves at least one bit, so `count` passes are enough. -/
def writeBits (value : Word) (bitIndex count : Nat) (s : State) : State := writeLoop value bitIndex count count s

/-- What a read primitive returns: the value, the number of bits read, and the state with the cursor advanced. -/
structure ReadOut (w : Nat) where
  value : BitVec w
  bits : Nat
  state : State
deriving DecidableEq, Repr

/-- The loop of `ReadBits` (R118) with `rem` bits to go, cut off after `fuel` passes (log entry 16). A word that does not
exist stops it (log entry 8). -/
def readLoop (bitIndex : Nat) : Nat → Nat → Word → State → Except Fault (Word × State)
  | 0, _, value, s => .ok (value, s)
  | fuel + 1, rem, value, s =>
    if rem = 0 then .ok (value, s)
    else match memRead s s.wi with
    | none => .error (.absentWord s.wi)
    | some w =>
      let bits := (w >>> (32 - s.bo - chunk s rem)) &&& mask (chunk s rem)
      readLoop bitIndex fuel (rem - chunk s rem) (value ||| (bits <<< (bitIndex + (rem - chunk s rem))))
        (advance (chunk s rem) s)

/-- `n = min(count, LEN - pos)`: how many bits a read gets before the soft end of stream (R119). -/
def available (s : State) (count : Nat) : Nat := min count (s.len - s.pos)

/-- `ReadBits(bitIndex, count)` (R118). -/
def readBits (bitIndex count : Nat) (s : State) : Except Fault (ReadOut 32) :=
  match readLoop bitIndex (available s count) (available s count) 0 s with
  | .error e => .error e
  | .ok (value, s') => .ok ⟨value, available s count, s'⟩

/-- The half of a 64-bit value that `Write64` hands to one call: it writes only if `cnt > 0` (R122). -/
def writeHalf (value : Word) (idx cnt : Nat) (s : State) : State := if cnt > 0 then writeBits value idx cnt s else s

/-- `Write64(value, bitIndex, count)`: the low-half part, then the high-half part (R122, HALF_ORDER of 00_scope.md R5). -/
def write64 (value : DWord) (bitIndex count : Nat) (s : State) : State :=
  let h := split64 bitIndex count
  match Config.halfOrder with
  | .lowFirst => writeHalf (value.extractLsb' 32 32) h.idx2 h.cnt2 (writeHalf (value.extractLsb' 0 32) h.idx1 h.cnt1 s)
  | .highFirst => writeHalf (value.extractLsb' 0 32) h.idx1 h.cnt1 (writeHalf (value.extractLsb' 32 32) h.idx2 h.cnt2 s)

/-- One call of `Read64`: `(cnt > 0) ? ReadBits(idx, cnt) : (0, 0)` (R123). -/
def readHalf (idx cnt : Nat) (s : State) : Except Fault (ReadOut 32) :=
  if cnt > 0 then readBits idx cnt s else .ok ⟨0, 0, s⟩

/-- The two halves put together: `((v2 << 32) | v1, n1 + n2)` (R123). -/
def joinHalves (lo hi : ReadOut 32) (s : State) : ReadOut 64 :=
  ⟨(hi.value.setWidth 64 <<< 32) ||| lo.value.setWidth 64, lo.bits + hi.bits, s⟩

/-- `Read64(bitIndex, count)`: the low-half part, then the high-half part (R123). -/
def read64 (bitIndex count : Nat) (s : State) : Except Fault (ReadOut 64) :=
  let h := split64 bitIndex count
  match Config.halfOrder with
  | .lowFirst =>
    match readHalf h.idx1 h.cnt1 s with
    | .error e => .error e
    | .ok lo =>
      match readHalf h.idx2 h.cnt2 lo.state with
      | .error e => .error e
      | .ok hi => .ok (joinHalves lo hi hi.state)
  | .highFirst =>
    match readHalf h.idx2 h.cnt2 s with
    | .error e => .error e
    | .ok hi =>
      match readHalf h.idx1 h.cnt1 hi.state with
      | .error e => .error e
      | .ok lo => .ok (joinHalves lo hi lo.state)

/-- The write of a field of a scalar: types of 32 bits or fewer use `A[31:0]`, 64-bit types both halves
(30_encoding.md R82, 41_scalar_write.md R140). -/
def writeField (ty : ScalarTy) (value : DWord) (bitIndex count : Nat) (s : State) : State :=
  if width ty ≤ 32 then writeBits (value.extractLsb' 0 32) bitIndex count s else write64 value bitIndex count s

/-- The read of a field of a scalar, zero-extended to 64 bits (42_scalar_read.md R160). -/
def readField (ty : ScalarTy) (bitIndex count : Nat) (s : State) : Except Fault (ReadOut 64) :=
  if width ty ≤ 32 then
    match readBits bitIndex count s with
    | .error e => .error e
    | .ok r => .ok ⟨r.value.setWidth 64, r.bits, r.state⟩
  else read64 bitIndex count s

/-! ### The operand buffer and the element loops of the array commands -/

/-- Element `i` of a buffer; past the end of the list it is 0 (log entry 9). -/
def bufGet : List DWord → Nat → DWord
  | [], _ => 0
  | x :: _, 0 => x
  | _ :: t, i + 1 => bufGet t i

/-- Element `i` replaced; the list is padded with zeros where it is too short (log entry 9). -/
def bufSet : List DWord → Nat → DWord → List DWord
  | [], 0, v => [v]
  | [], i + 1, v => 0 :: bufSet [] i v
  | _ :: t, 0, v => v :: t
  | x :: t, i + 1, v => x :: bufSet t i v

/-- The low `width(ty)` bits of a value, zero-extended. -/
def elementOf (ty : ScalarTy) (v : DWord) : DWord := (v.setWidth (width ty)).setWidth 64

/-- `BufRead(i)`: element i as a `width(ty)`-bit pattern, upper bits zero (43_array.md R205). -/
def bufRead (ty : ScalarTy) (s : State) (i : Nat) : DWord := elementOf ty (bufGet s.buf i)

/-- `BufWrite(i, v)`: "stores the low `width(ty)` bits of v as element i" (43_array.md R205). -/
def bufWrite (ty : ScalarTy) (i : Nat) (v : DWord) (s : State) : State :=
  { s with buf := bufSet s.buf i (elementOf ty v) }

/-- The loop of `WRA.<ty>` over `k` elements from index `i` (43_array.md R180): each is the scalar whole-value write. -/
def writeElems (ty : ScalarTy) : Nat → Nat → State → State
  | 0, _, s => s
  | k + 1, i, s => writeElems ty k (i + 1) (writeField ty (bufRead ty s i) 0 (width ty) s)

/-- The loop of `RDA.<ty>` over `k` elements from index `i` with `total` bits read so far (43_array.md R193): each is the
scalar whole-value read; the first that returns 0 bits ends the loop and stores nothing. -/
def readElems (ty : ScalarTy) : Nat → Nat → Nat → State → Except Fault (Nat × State)
  | 0, _, total, s => .ok (total, s)
  | k + 1, i, total, s =>
    match readField ty 0 (width ty) s with
    | .error e => .error e
    | .ok r =>
      if r.bits = 0 then .ok (total, r.state)
      else readElems ty k (i + 1) (total + r.bits) (bufWrite ty i r.value r.state)

end Sys2Proof.Machine
end

