-- ==== Sys2Proof/Machine/ArrayRead.lean ====
section
/-! DEFINITION. The array read commands RDA.<ty> (spec/43_array.md R193 to R204). -/

namespace Sys2Proof.Machine

/-- The template of 43_array.md R193. -/
def readArray (ty : ScalarTy) (b : BufArg) (off cnt : Int) (s : State) : Host.Outcome State Fault Refusal :=
  if s.isOpen = false then .next (raise .closedStream s)
  else match b with
  | .null => .next (raise .nullArgument s)
  | .present bufLen =>
    if ArrayInvalid bufLen off cnt then .next (raise .invalidArgument s)
    else match readElems ty cnt.toNat off.toNat 0 s with
    | .error e => .fault e
    | .ok (total, s') => .next (respond 0 total s')

/-- `RDA.bool` (43_array.md R194). -/
def execRdaBool (b : BufArg) (off cnt : Int) (s : State) : Host.Outcome State Fault Refusal :=
  readArray .bool b off cnt s

/-- `RDA.byte` (43_array.md R195). -/
def execRdaByte (b : BufArg) (off cnt : Int) (s : State) : Host.Outcome State Fault Refusal :=
  readArray .byte b off cnt s

/-- `RDA.sbyte` (43_array.md R196). -/
def execRdaSbyte (b : BufArg) (off cnt : Int) (s : State) : Host.Outcome State Fault Refusal :=
  readArray .sbyte b off cnt s

/-- `RDA.char` (43_array.md R197). -/
def execRdaChar (b : BufArg) (off cnt : Int) (s : State) : Host.Outcome State Fault Refusal :=
  readArray .char b off cnt s

/-- `RDA.short` (43_array.md R198). -/
def execRdaShort (b : BufArg) (off cnt : Int) (s : State) : Host.Outcome State Fault Refusal :=
  readArray .short b off cnt s

/-- `RDA.ushort` (43_array.md R199). -/
def execRdaUshort (b : BufArg) (off cnt : Int) (s : State) : Host.Outcome State Fault Refusal :=
  readArray .ushort b off cnt s

/-- `RDA.int` (43_array.md R200). -/
def execRdaInt (b : BufArg) (off cnt : Int) (s : State) : Host.Outcome State Fault Refusal :=
  readArray .int b off cnt s

/-- `RDA.uint` (43_array.md R201). -/
def execRdaUint (b : BufArg) (off cnt : Int) (s : State) : Host.Outcome State Fault Refusal :=
  readArray .uint b off cnt s

/-- `RDA.float` (43_array.md R202). -/
def execRdaFloat (b : BufArg) (off cnt : Int) (s : State) : Host.Outcome State Fault Refusal :=
  readArray .float b off cnt s

/-- `RDA.long` (43_array.md R203). -/
def execRdaLong (b : BufArg) (off cnt : Int) (s : State) : Host.Outcome State Fault Refusal :=
  readArray .long b off cnt s

/-- `RDA.ulong` (43_array.md R204). -/
def execRdaUlong (b : BufArg) (off cnt : Int) (s : State) : Host.Outcome State Fault Refusal :=
  readArray .ulong b off cnt s

end Sys2Proof.Machine
end

