-- ==== Sys2Proof/Machine/ArrayWrite.lean ====
section
/-! DEFINITION. The array write commands WRA.<ty> (spec/43_array.md R180 to R192). -/

namespace Sys2Proof.Machine

/-- The template of 43_array.md R180. The bulk shortcut of R192 has no observable effect and is not modelled apart. -/
def writeArray (ty : ScalarTy) (b : BufArg) (off cnt : Int) (s : State) : Host.Outcome State Fault Refusal :=
  if s.isOpen = false then .next (raise .closedStream s)
  else match b with
  | .null => .next (raise .nullArgument s)
  | .present bufLen =>
    if ArrayInvalid bufLen off cnt then .next (raise .invalidArgument s)
    else if s.pos + cnt.toNat * width ty > s.maxBits then .next (raise .exhausted s)
    else .next (respond 0 0 (writeElems ty cnt.toNat off.toNat s))

/-- `WRA.bool` (43_array.md R181). -/
def execWraBool (b : BufArg) (off cnt : Int) (s : State) : Host.Outcome State Fault Refusal :=
  writeArray .bool b off cnt s

/-- `WRA.byte` (43_array.md R182). -/
def execWraByte (b : BufArg) (off cnt : Int) (s : State) : Host.Outcome State Fault Refusal :=
  writeArray .byte b off cnt s

/-- `WRA.sbyte` (43_array.md R183). -/
def execWraSbyte (b : BufArg) (off cnt : Int) (s : State) : Host.Outcome State Fault Refusal :=
  writeArray .sbyte b off cnt s

/-- `WRA.char` (43_array.md R184). -/
def execWraChar (b : BufArg) (off cnt : Int) (s : State) : Host.Outcome State Fault Refusal :=
  writeArray .char b off cnt s

/-- `WRA.short` (43_array.md R185). -/
def execWraShort (b : BufArg) (off cnt : Int) (s : State) : Host.Outcome State Fault Refusal :=
  writeArray .short b off cnt s

/-- `WRA.ushort` (43_array.md R186). -/
def execWraUshort (b : BufArg) (off cnt : Int) (s : State) : Host.Outcome State Fault Refusal :=
  writeArray .ushort b off cnt s

/-- `WRA.int` (43_array.md R187). -/
def execWraInt (b : BufArg) (off cnt : Int) (s : State) : Host.Outcome State Fault Refusal :=
  writeArray .int b off cnt s

/-- `WRA.uint` (43_array.md R188). -/
def execWraUint (b : BufArg) (off cnt : Int) (s : State) : Host.Outcome State Fault Refusal :=
  writeArray .uint b off cnt s

/-- `WRA.float` (43_array.md R189). -/
def execWraFloat (b : BufArg) (off cnt : Int) (s : State) : Host.Outcome State Fault Refusal :=
  writeArray .float b off cnt s

/-- `WRA.long` (43_array.md R190). -/
def execWraLong (b : BufArg) (off cnt : Int) (s : State) : Host.Outcome State Fault Refusal :=
  writeArray .long b off cnt s

/-- `WRA.ulong` (43_array.md R191). -/
def execWraUlong (b : BufArg) (off cnt : Int) (s : State) : Host.Outcome State Fault Refusal :=
  writeArray .ulong b off cnt s

end Sys2Proof.Machine
end

