-- ==== Sys2Proof/Machine/Flags.lean ====
section
/-! DEFINITION. The five state flags (spec/10_state.md R32: they are not stored, they are functions of OPEN or constants)
and the numbers the host sees of statuses (30_encoding.md R91). -/

namespace Sys2Proof.Machine

/-- A flag as the 64-bit value of a response: 0 or 1 (10_state.md R33). -/
def flagValue (b : Bool) : DWord := if b then 1 else 0

/-- "`CanRead`/`CanWrite` == stream-open flag" (45_lifecycle_flags.md R234). -/
def canRead (s : State) : Bool := s.isOpen

/-- The same value as `canRead` always (45_lifecycle_flags.md R235). -/
def canWrite (s : State) : Bool := s.isOpen

/-- "`CanSeek` is always false" (45_lifecycle_flags.md R236). -/
def canSeek (_ : State) : Bool := false

/-- "`CanSetLength`/`CanFlush` are always false" (45_lifecycle_flags.md R237). -/
def canSetLen (_ : State) : Bool := false

/-- "`CanSetLength`/`CanFlush` are always false" (45_lifecycle_flags.md R238). -/
def canFlush (_ : State) : Bool := false

/-- ST, the 3-bit status code of a response (30_encoding.md R91). -/
def Status.code : Status → BitVec 3
  | .ok => 0
  | .closedStream => 1
  | .invalidArgument => 2
  | .nullArgument => 3
  | .outOfRange => 4
  | .exhausted => 5
  | .illegalCommand => 7

end Sys2Proof.Machine
end

