-- ==== Sys2Proof/Machine/Lifecycle.lean ====
section
/-! DEFINITION. Creation, closing, flush and the state-flag commands (spec/45_lifecycle_flags.md). -/

namespace Sys2Proof.Machine

/-- `INIT` (45_lifecycle_flags.md R230): it does not test OPEN. -/
def execInit (s : State) : Host.Outcome State Fault Refusal := .next (respond 0 0 (create Config.defaultCapWords s))

/-- `INITC cap` (45_lifecycle_flags.md R231): it does not test OPEN; on failure the old stream stays. -/
def execInitc (cap : Int) (s : State) : Host.Outcome State Fault Refusal :=
  if cap ≤ 0 then .next (raise .invalidArgument s)
  else if capWords cap > s.maxWords then .next (raise .exhausted s)
  else .next (respond 0 0 (create (capWords cap) s))

/-- `CLOSE` (45_lifecycle_flags.md R232): idempotent. -/
def execClose (s : State) : Host.Outcome State Fault Refusal := .next (respond 0 0 { s with isOpen := false })

/-- `FLUSH` (45_lifecycle_flags.md R233): a no-op on an open unit. -/
def execFlush (s : State) : Host.Outcome State Fault Refusal :=
  if s.isOpen = false then .next (raise .closedStream s) else .next (respond 0 0 s)

/-- The template of the state-flag commands: they never fail and work on a closed unit (45_lifecycle_flags.md section 4). -/
def answerFlag (b : Bool) (s : State) : Host.Outcome State Fault Refusal := .next (respond (flagValue b) 0 s)

/-- `CANREAD` (45_lifecycle_flags.md R234). -/
def execCanread (s : State) : Host.Outcome State Fault Refusal := answerFlag (canRead s) s

/-- `CANWRITE` (45_lifecycle_flags.md R235). -/
def execCanwrite (s : State) : Host.Outcome State Fault Refusal := answerFlag (canWrite s) s

/-- `CANSEEK` (45_lifecycle_flags.md R236). -/
def execCanseek (s : State) : Host.Outcome State Fault Refusal := answerFlag (canSeek s) s

/-- `CANSETLEN` (45_lifecycle_flags.md R237). -/
def execCansetlen (s : State) : Host.Outcome State Fault Refusal := answerFlag (canSetLen s) s

/-- `CANFLUSH` (45_lifecycle_flags.md R238). -/
def execCanflush (s : State) : Host.Outcome State Fault Refusal := answerFlag (canFlush s) s

end Sys2Proof.Machine
end

