-- ==== Sys2Proof/Machine/PositionLength.lean ====
section
/-! DEFINITION. The position and length commands (spec/44_position_length.md). -/

namespace Sys2Proof.Machine

/-- The template of the accessors: closed check, then the value (44_position_length.md R210, R212 to R216). -/
def answerOpen (v : Nat) (s : State) : Host.Outcome State Fault Refusal :=
  if s.isOpen = false then .next (raise .closedStream s) else .next (respond (BitVec.ofNat 64 v) 0 s)

/-- `GETPOS` (44_position_length.md R210). -/
def execGetpos (s : State) : Host.Outcome State Fault Refusal := answerOpen s.pos s

/-- `SETPOS v` (44_position_length.md R211). -/
def execSetpos (v : Int) (s : State) : Host.Outcome State Fault Refusal :=
  if s.isOpen = false then .next (raise .closedStream s)
  else if PositionInvalid s.len v then .next (raise .outOfRange s)
  else .next (respond 0 0 (setCursor v.toNat s))

/-- `GETLEN` (44_position_length.md R212). -/
def execGetlen (s : State) : Host.Outcome State Fault Refusal := answerOpen s.len s

/-- `LEN8` (44_position_length.md R213). -/
def execLen8 (s : State) : Host.Outcome State Fault Refusal := answerOpen (roundUp s.len 3) s

/-- `LEN16` (44_position_length.md R214). -/
def execLen16 (s : State) : Host.Outcome State Fault Refusal := answerOpen (roundUp s.len 4) s

/-- `LEN32` (44_position_length.md R215). -/
def execLen32 (s : State) : Host.Outcome State Fault Refusal := answerOpen (roundUp s.len 5) s

/-- `LEN64` (44_position_length.md R216). -/
def execLen64 (s : State) : Host.Outcome State Fault Refusal := answerOpen (roundUp s.len 6) s

end Sys2Proof.Machine
end

