-- ==== Sys2Proof/Machine/ScalarRead.lean ====
section
/-! DEFINITION. The scalar read commands RD.<ty> (spec/42_scalar_read.md). -/

namespace Sys2Proof.Machine

/-- The template of 42_scalar_read.md R160: validation comes before the end-of-stream test. -/
def readScalar (ty : ScalarTy) (f : Form) (s : State) : Host.Outcome State Fault Refusal :=
  if s.isOpen = false then .next (raise .closedStream s)
  else if FieldInvalid (width ty) (fieldIndex f) (fieldCount (width ty) f) then .next (raise .invalidArgument s)
  else match readField ty (fieldIndex f).toNat (fieldCount (width ty) f).toNat s with
  | .error e => .fault e
  | .ok r => .next (respond r.value r.bits r.state)

/-- `RD.bool` (42_scalar_read.md R161). -/
def execRdBool (f : Form) (s : State) : Host.Outcome State Fault Refusal :=
  readScalar .bool f s

/-- `RD.byte` (42_scalar_read.md R162). -/
def execRdByte (f : Form) (s : State) : Host.Outcome State Fault Refusal :=
  readScalar .byte f s

/-- `RD.sbyte` (42_scalar_read.md R163). -/
def execRdSbyte (f : Form) (s : State) : Host.Outcome State Fault Refusal :=
  readScalar .sbyte f s

/-- `RD.char` (42_scalar_read.md R164). -/
def execRdChar (f : Form) (s : State) : Host.Outcome State Fault Refusal :=
  readScalar .char f s

/-- `RD.short` (42_scalar_read.md R165). -/
def execRdShort (f : Form) (s : State) : Host.Outcome State Fault Refusal :=
  readScalar .short f s

/-- `RD.ushort` (42_scalar_read.md R166). -/
def execRdUshort (f : Form) (s : State) : Host.Outcome State Fault Refusal :=
  readScalar .ushort f s

/-- `RD.int` (42_scalar_read.md R167). -/
def execRdInt (f : Form) (s : State) : Host.Outcome State Fault Refusal :=
  readScalar .int f s

/-- `RD.uint` (42_scalar_read.md R168). -/
def execRdUint (f : Form) (s : State) : Host.Outcome State Fault Refusal :=
  readScalar .uint f s

/-- `RD.float` (42_scalar_read.md R169). -/
def execRdFloat (f : Form) (s : State) : Host.Outcome State Fault Refusal :=
  readScalar .float f s

/-- `RD.long` (42_scalar_read.md R170). -/
def execRdLong (f : Form) (s : State) : Host.Outcome State Fault Refusal :=
  readScalar .long f s

/-- `RD.ulong` (42_scalar_read.md R171). -/
def execRdUlong (f : Form) (s : State) : Host.Outcome State Fault Refusal :=
  readScalar .ulong f s

end Sys2Proof.Machine
end

