-- ==== Sys2Proof/Machine/ScalarWrite.lean ====
section
/-! DEFINITION. The scalar write commands WR.<ty> (spec/41_scalar_write.md). -/

namespace Sys2Proof.Machine

/-- The template of 41_scalar_write.md R140. A failing command changes nothing and answers its status (60_exceptions.md
R260), in the priority order of R259. -/
def writeScalar (ty : ScalarTy) (a : DWord) (f : Form) (s : State) : Host.Outcome State Fault Refusal :=
  if s.isOpen = false then .next (raise .closedStream s)
  else if FieldInvalid (width ty) (fieldIndex f) (fieldCount (width ty) f) then .next (raise .invalidArgument s)
  else if s.pos + (fieldCount (width ty) f).toNat > s.maxBits then .next (raise .exhausted s)
  else .next (respond 0 0 (writeField ty a (fieldIndex f).toNat (fieldCount (width ty) f).toNat s))

/-- `WR.bool` (41_scalar_write.md R141). -/
def execWrBool (a : DWord) (f : Form) (s : State) : Host.Outcome State Fault Refusal :=
  writeScalar .bool a f s

/-- `WR.byte` (41_scalar_write.md R142). -/
def execWrByte (a : DWord) (f : Form) (s : State) : Host.Outcome State Fault Refusal :=
  writeScalar .byte a f s

/-- `WR.sbyte` (41_scalar_write.md R143). -/
def execWrSbyte (a : DWord) (f : Form) (s : State) : Host.Outcome State Fault Refusal :=
  writeScalar .sbyte a f s

/-- `WR.char` (41_scalar_write.md R144). -/
def execWrChar (a : DWord) (f : Form) (s : State) : Host.Outcome State Fault Refusal :=
  writeScalar .char a f s

/-- `WR.short` (41_scalar_write.md R145). -/
def execWrShort (a : DWord) (f : Form) (s : State) : Host.Outcome State Fault Refusal :=
  writeScalar .short a f s

/-- `WR.ushort` (41_scalar_write.md R146). -/
def execWrUshort (a : DWord) (f : Form) (s : State) : Host.Outcome State Fault Refusal :=
  writeScalar .ushort a f s

/-- `WR.int` (41_scalar_write.md R147). -/
def execWrInt (a : DWord) (f : Form) (s : State) : Host.Outcome State Fault Refusal :=
  writeScalar .int a f s

/-- `WR.uint` (41_scalar_write.md R148). -/
def execWrUint (a : DWord) (f : Form) (s : State) : Host.Outcome State Fault Refusal :=
  writeScalar .uint a f s

/-- `WR.float` (41_scalar_write.md R149). -/
def execWrFloat (a : DWord) (f : Form) (s : State) : Host.Outcome State Fault Refusal :=
  writeScalar .float a f s

/-- `WR.long` (41_scalar_write.md R150). -/
def execWrLong (a : DWord) (f : Form) (s : State) : Host.Outcome State Fault Refusal :=
  writeScalar .long a f s

/-- `WR.ulong` (41_scalar_write.md R151). -/
def execWrUlong (a : DWord) (f : Form) (s : State) : Host.Outcome State Fault Refusal :=
  writeScalar .ulong a f s

end Sys2Proof.Machine
end

