-- ==== Sys2Proof/Machine/Dispatch.lean ====
section
/-! DEFINITION. One arm per instruction of spec/opcode_table.json, each one call of its meaning. -/

namespace Sys2Proof.Machine

def exec (i : Instr) (s : State) : Host.Outcome State Fault Refusal :=
  match i with
  | .init => Sys2Proof.Machine.execInit s
  | .initc v => Sys2Proof.Machine.execInitc v s
  | .close => Sys2Proof.Machine.execClose s
  | .flush => Sys2Proof.Machine.execFlush s
  | .getpos => Sys2Proof.Machine.execGetpos s
  | .setpos v => Sys2Proof.Machine.execSetpos v s
  | .getlen => Sys2Proof.Machine.execGetlen s
  | .len8 => Sys2Proof.Machine.execLen8 s
  | .len16 => Sys2Proof.Machine.execLen16 s
  | .len32 => Sys2Proof.Machine.execLen32 s
  | .len64 => Sys2Proof.Machine.execLen64 s
  | .canread => Sys2Proof.Machine.execCanread s
  | .canwrite => Sys2Proof.Machine.execCanwrite s
  | .canseek => Sys2Proof.Machine.execCanseek s
  | .cansetlen => Sys2Proof.Machine.execCansetlen s
  | .canflush => Sys2Proof.Machine.execCanflush s
  | .wrBool a f => Sys2Proof.Machine.execWrBool a f s
  | .wrByte a f => Sys2Proof.Machine.execWrByte a f s
  | .wrSbyte a f => Sys2Proof.Machine.execWrSbyte a f s
  | .wrChar a f => Sys2Proof.Machine.execWrChar a f s
  | .wrShort a f => Sys2Proof.Machine.execWrShort a f s
  | .wrUshort a f => Sys2Proof.Machine.execWrUshort a f s
  | .wrInt a f => Sys2Proof.Machine.execWrInt a f s
  | .wrUint a f => Sys2Proof.Machine.execWrUint a f s
  | .wrFloat a f => Sys2Proof.Machine.execWrFloat a f s
  | .wrLong a f => Sys2Proof.Machine.execWrLong a f s
  | .wrUlong a f => Sys2Proof.Machine.execWrUlong a f s
  | .rdBool f => Sys2Proof.Machine.execRdBool f s
  | .rdByte f => Sys2Proof.Machine.execRdByte f s
  | .rdSbyte f => Sys2Proof.Machine.execRdSbyte f s
  | .rdChar f => Sys2Proof.Machine.execRdChar f s
  | .rdShort f => Sys2Proof.Machine.execRdShort f s
  | .rdUshort f => Sys2Proof.Machine.execRdUshort f s
  | .rdInt f => Sys2Proof.Machine.execRdInt f s
  | .rdUint f => Sys2Proof.Machine.execRdUint f s
  | .rdFloat f => Sys2Proof.Machine.execRdFloat f s
  | .rdLong f => Sys2Proof.Machine.execRdLong f s
  | .rdUlong f => Sys2Proof.Machine.execRdUlong f s
  | .wraBool b off cnt => Sys2Proof.Machine.execWraBool b off cnt s
  | .wraByte b off cnt => Sys2Proof.Machine.execWraByte b off cnt s
  | .wraSbyte b off cnt => Sys2Proof.Machine.execWraSbyte b off cnt s
  | .wraChar b off cnt => Sys2Proof.Machine.execWraChar b off cnt s
  | .wraShort b off cnt => Sys2Proof.Machine.execWraShort b off cnt s
  | .wraUshort b off cnt => Sys2Proof.Machine.execWraUshort b off cnt s
  | .wraInt b off cnt => Sys2Proof.Machine.execWraInt b off cnt s
  | .wraUint b off cnt => Sys2Proof.Machine.execWraUint b off cnt s
  | .wraFloat b off cnt => Sys2Proof.Machine.execWraFloat b off cnt s
  | .wraLong b off cnt => Sys2Proof.Machine.execWraLong b off cnt s
  | .wraUlong b off cnt => Sys2Proof.Machine.execWraUlong b off cnt s
  | .rdaBool b off cnt => Sys2Proof.Machine.execRdaBool b off cnt s
  | .rdaByte b off cnt => Sys2Proof.Machine.execRdaByte b off cnt s
  | .rdaSbyte b off cnt => Sys2Proof.Machine.execRdaSbyte b off cnt s
  | .rdaChar b off cnt => Sys2Proof.Machine.execRdaChar b off cnt s
  | .rdaShort b off cnt => Sys2Proof.Machine.execRdaShort b off cnt s
  | .rdaUshort b off cnt => Sys2Proof.Machine.execRdaUshort b off cnt s
  | .rdaInt b off cnt => Sys2Proof.Machine.execRdaInt b off cnt s
  | .rdaUint b off cnt => Sys2Proof.Machine.execRdaUint b off cnt s
  | .rdaFloat b off cnt => Sys2Proof.Machine.execRdaFloat b off cnt s
  | .rdaLong b off cnt => Sys2Proof.Machine.execRdaLong b off cnt s
  | .rdaUlong b off cnt => Sys2Proof.Machine.execRdaUlong b off cnt s

end Sys2Proof.Machine
end

