-- ==== Sys2Proof/Machine/Step.lean ====
section
/-! DEFINITION. One step: the unit takes what the host presents next and carries it out (spec/00_scope.md R11). -/

namespace Sys2Proof.Machine

/-- "the host presents one command frame ..., the unit executes it atomically against its state and returns one response
frame, and only then takes the next command" (00_scope.md R11). A reserved control word executes nothing and answers
IllegalCommand, open or closed (30_encoding.md R88). A hardware reset comes between commands (70_reset_and_hazards.md
R280). With nothing presented the unit waits as it is (log entry 3). -/
def step (s : State) : Host.Outcome State Fault Refusal :=
  match s.pending with
  | [] => .next s
  | .reset :: rest => .next (hardReset { s with pending := rest })
  | .command c :: rest =>
    match decode c.frame with
    | .ok i => exec i (present c rest s)
    | .error _ => .next (raise .illegalCommand (present c rest s))

/-- The state in which the host presents, before anything else, the instruction whose table row has `nbits` bits with
value `w`, every other bit of its frame 0 and with an operand buffer of zeros (log entry 2). -/
def State.withFetchWord (s : State) (nbits w : Nat) : State :=
  { s with pending := .command ⟨Frame.ofTableWord nbits w, []⟩ :: s.pending }

end Sys2Proof.Machine
end

