-- ==== Sys2Proof/Safety.lean ====
section
/-! DEFINITION. What a good state is, in the terms statements use: the invariants I1 to I6 of spec/10_state.md R27, the
canonical form of the store, and what is observable of a state (00_scope.md R12). -/

namespace Sys2Proof.Machine

/-- The invariants of 10_state.md R27, with the bounds of the parameter MAX_WORDS (00_scope.md R5) and the canonical form
of the store. I5 is stated of every position at or beyond LEN, those of words not allocated too: a word brought in by
growth is zero (20_memory.md R59), and the store lists none beyond WC. I6 follows from I1 and I2 and stands here because
R27 lists it. -/
structure UnitInv (s : State) : Prop where
  /-- R5: 1 <= MAX_WORDS <= 2^57. -/
  maxWords_pos : 1 ≤ s.maxWords
  maxWords_le : s.maxWords ≤ Config.maxWordsBound
  /-- I1. -/
  wc_pos : 1 ≤ s.wc
  wc_le : s.wc ≤ s.maxWords
  /-- I2. -/
  len_le_capacity : s.len ≤ 32 * s.wc
  /-- I3. -/
  pos_le_len : s.pos ≤ s.len
  /-- I4. -/
  bo_lt : s.bo < 32
  /-- I5 (R28). -/
  zero_beyond : ∀ p, s.len ≤ p → bitAt s.mem p = false
  /-- I6. -/
  len_le_maxBits : s.len ≤ s.maxBits
  /-- The canonical form of the store. -/
  mem_wf : Memory.wf s.mem = true

/-- `n` steps one after another, stopping at the first that gives no next state: a run of the unit (00_scope.md R11). -/
def runSteps : Nat → State → Host.Outcome State Fault Refusal
  | 0, s => .next s
  | n + 1, s =>
    match step s with
    | .next t => runSteps n t
    | .fault r => .fault r
    | .refused r => .refused r

/-- The kinds of command the whole-machine rules speak of (10_state.md R23 to R26, R32; 60_exceptions.md R251, R258). -/
inductive Kind where
  /-- WR.<ty>. -/
  | write
  /-- RD.<ty>. -/
  | read
  /-- WRA.<ty>. -/
  | arrayWrite
  /-- RDA.<ty>. -/
  | arrayRead
  /-- GETPOS, GETLEN, LEN8, LEN16, LEN32, LEN64. -/
  | accessor
  /-- SETPOS. -/
  | setPosition
  /-- INIT. -/
  | init
  /-- INITC. -/
  | initCapacity
  /-- CLOSE. -/
  | close
  /-- FLUSH. -/
  | flush
  /-- CANREAD, CANWRITE, CANSEEK, CANSETLEN, CANFLUSH. -/
  | flag
deriving DecidableEq, Repr

/-- The kind of each instruction. -/
def kindOf : Instr → Kind
  | .init => .init
  | .initc _ => .initCapacity
  | .close => .close
  | .flush => .flush
  | .setpos _ => .setPosition
  | .getpos | .getlen | .len8 | .len16 | .len32 | .len64 => .accessor
  | .canread | .canwrite | .canseek | .cansetlen | .canflush => .flag
  | .wrBool .. | .wrByte .. | .wrSbyte .. | .wrChar .. | .wrShort .. | .wrUshort ..
  | .wrInt .. | .wrUint .. | .wrFloat .. | .wrLong .. | .wrUlong .. => .write
  | .rdBool .. | .rdByte .. | .rdSbyte .. | .rdChar .. | .rdShort .. | .rdUshort ..
  | .rdInt .. | .rdUint .. | .rdFloat .. | .rdLong .. | .rdUlong .. => .read
  | .wraBool .. | .wraByte .. | .wraSbyte .. | .wraChar .. | .wraShort .. | .wraUshort ..
  | .wraInt .. | .wraUint .. | .wraFloat .. | .wraLong .. | .wraUlong .. => .arrayWrite
  | .rdaBool .. | .rdaByte .. | .rdaSbyte .. | .rdaChar .. | .rdaShort .. | .rdaUshort ..
  | .rdaInt .. | .rdaUint .. | .rdaFloat .. | .rdaLong .. | .rdaUlong .. => .arrayRead

/-- F = 1: the form with an explicit bit index and count (30_encoding.md R81, R82). -/
def isField : Form → Bool
  | .whole => false
  | .field .. => true

/-- A scalar command in its field form (F = 1), the only scalar commands that 60_exceptions.md R252 (a) lets raise
InvalidArgument. -/
def isFieldForm : Instr → Bool
  | .init | .initc _ | .close | .flush | .getpos | .setpos _ | .getlen | .len8 | .len16 | .len32 | .len64
  | .canread | .canwrite | .canseek | .cansetlen | .canflush => false
  | .wrBool _ f | .wrByte _ f | .wrSbyte _ f | .wrChar _ f | .wrShort _ f | .wrUshort _ f
  | .wrInt _ f | .wrUint _ f | .wrFloat _ f | .wrLong _ f | .wrUlong _ f => isField f
  | .rdBool f | .rdByte f | .rdSbyte f | .rdChar f | .rdShort f | .rdUshort f
  | .rdInt f | .rdUint f | .rdFloat f | .rdLong f | .rdUlong f => isField f
  | .wraBool .. | .wraByte .. | .wraSbyte .. | .wraChar .. | .wraShort .. | .wraUshort ..
  | .wraInt .. | .wraUint .. | .wraFloat .. | .wraLong .. | .wraUlong .. => false
  | .rdaBool .. | .rdaByte .. | .rdaSbyte .. | .rdaChar .. | .rdaShort .. | .rdaUshort ..
  | .rdaInt .. | .rdaUint .. | .rdaFloat .. | .rdaLong .. | .rdaUlong .. => false

/-- Which failures the table of 60_exceptions.md R258 allows a command, row by row: a scalar command has one row for F = 0
and one for F = 1. IllegalCommand is in no row of a legal control word. -/
def mayRaise (i : Instr) : List Status :=
  match kindOf i with
  | .init => []
  | .initCapacity => [.invalidArgument, .exhausted]
  | .close => []
  | .flush => [.closedStream]
  | .write => if isFieldForm i then [.closedStream, .invalidArgument, .exhausted] else [.closedStream, .exhausted]
  | .read => if isFieldForm i then [.closedStream, .invalidArgument] else [.closedStream]
  | .arrayWrite => [.closedStream, .nullArgument, .invalidArgument, .exhausted]
  | .arrayRead => [.closedStream, .nullArgument, .invalidArgument]
  | .accessor => [.closedStream]
  | .setPosition => [.closedStream, .outOfRange]
  | .flag => []

/-- The commands that fail with ClosedStream on a closed unit (60_exceptions.md R251). -/
def needsOpen (i : Instr) : Bool := decide (Status.closedStream ∈ mayRaise i)

/-- The control word's command uses the frame field A (30_encoding.md R80): WR, INITC, SETPOS. -/
def usesA (cw : Word) : Bool := decide (cwOp cw ∈ [0x02, 0x10, 0x21])

/-- The control word's command uses IDX and CNT (30_encoding.md R80): WR and RD with F = 1, WRA, RDA. -/
def usesIndexCount (cw : Word) : Bool :=
  (decide (cwOp cw ∈ [0x10, 0x11]) && cwForm cw) || decide (cwOp cw ∈ [0x12, 0x13])

/-- The control word's command uses BLEN (30_encoding.md R80): WRA and RDA with BP = 1. -/
def usesBufLen (cw : Word) : Bool := decide (cwOp cw ∈ [0x12, 0x13]) && cwBuf cw

/-- First bit of a scalar command's field, once it is known not to be negative (30_encoding.md R82). -/
def fieldStart (f : Form) : Nat := (fieldIndex f).toNat

/-- Number of bits of a scalar command's field, once it is known not to be negative (30_encoding.md R82). -/
def fieldBits (ty : ScalarTy) (f : Form) : Nat := (fieldCount (width ty) f).toNat

/-- The field lies in the type: what `ValidateField` lets pass (40_bitfield_primitives.md R127). -/
abbrev FieldOk (ty : ScalarTy) (f : Form) : Prop :=
  0 ≤ fieldIndex f ∧ 0 ≤ fieldCount (width ty) f ∧ fieldIndex f + fieldCount (width ty) f ≤ width ty

/-- The elements lie in the buffer: what the array commands' checks let pass (43_array.md R180, R193). -/
abbrev ArrayOk (bufLen : Nat) (off cnt : Int) : Prop := 0 ≤ off ∧ 0 ≤ cnt ∧ off + cnt ≤ bufLen

/-- The value bit that stream bit `i` of the field `[b, b + c)` is: most significant first (20_memory.md R52), the part in
the low 32 bits of the value before the part in the high 32 bits (40_bitfield_primitives.md R122). For a field within the
low half this is `b + c - 1 - i` (R117 (a)). -/
def fieldBitIndex (b c i : Nat) : Nat :=
  let low := min (b + c) 32 - min b 32
  if i < low then min (b + c) 32 - 1 - i else b + c - 1 - (i - low)

/-- `v` is the field of `n` bits that stands in the stream at `p`, placed at value bits `[b, b + n)`, and 0 elsewhere
(40_bitfield_primitives.md R119, R120 (a), (b)). -/
structure ReadAs (m : List Host.Cell) (p b n : Nat) (v : DWord) : Prop where
  bits : ∀ i, i < n → v.getLsbD (fieldBitIndex b n i) = bitAt m (p + i)
  clean : ∀ j, j < b ∨ b + n ≤ j → v.getLsbD j = false

/-- From `s` to `t`, `k` bits have been written at the cursor, bit `i` of them being `f i`, and nothing else has changed: the
bit law of 40_bitfield_primitives.md R117 (a) to (e), the cursor and LEN rules of R111 and R114, growth by R59. -/
structure Wrote (s t : State) (k : Nat) (f : Nat → Bool) : Prop where
  /-- R117 (a), (b). -/
  bits : ∀ p, bitAt t.mem p = if s.pos ≤ p ∧ p < s.pos + k then f (p - s.pos) else bitAt s.mem p
  /-- R117 (c). -/
  pos : t.pos = s.pos + k
  bo_lt : t.bo < 32
  /-- R117 (d). -/
  len : t.len = max s.len (s.pos + k)
  /-- R117 (e): `max(WC_before, ceil((P+count)/32))`. -/
  wc : t.wc = max s.wc ((s.pos + k + 31) / 32)
  mem_wf : Memory.wf t.mem = true
  isOpen : t.isOpen = s.isOpen
  maxWords : t.maxWords = s.maxWords
  pending : t.pending = s.pending
  buf : t.buf = s.buf
  answers : t.answers = s.answers

end Sys2Proof.Machine
end

