-- ==== Sys2Proof/Certificates/Slice0/Obligations.lean ====
section
/-! DEFINITION. The statements for the provers. Each docstring names the rules of spec/ it formalises. `Instr.wr ty`,
`Instr.rd ty`, `Instr.wra ty` and `Instr.rda ty` range over the eleven constructors of their family as `ty` ranges over
the eleven types; `raise st s` is `s` with the answer (st, 0, 0) delivered and nothing else changed (60_exceptions.md
R260), `respond v n s` is `s` with the answer (OK, v, n) delivered. -/

open Sys2Proof Sys2Proof.Machine

/-! ### Encoding -/

/-- Decoding the frame of a well-formed instruction gives the instruction back, every operand at every value its field
admits (30_encoding.md R81 to R86). That the encoder puts 0 into the fields a command does not use is the model's choice
(log entry 14). -/
def Obligations.DecodeInvertsEncode : Prop :=
  ∀ i : Instr, i.wellFormed = true → decode (encode i) = .ok i

/-- What the decoder yields is well-formed: its operands fit the fields they were read from (30_encoding.md R80, R83). -/
def Obligations.DecodedInstructionIsWellFormed : Prop :=
  ∀ (f : Frame) (i : Instr), decode f = .ok i → i.wellFormed = true

/-- An instruction is selected by its row's match and mask, no other row matches the word, and a word that no row matches
is rejected (30_encoding.md R86). -/
def Obligations.MatchAndMaskSelect : Prop :=
  ∀ f : Frame,
    (∀ i, decode f = .ok i →
      f.cw &&& rowMask i = rowMatch i ∧ ∀ j, f.cw &&& rowMask j = rowMatch j → j.mnemonic = i.mnemonic) ∧
    (∀ e, decode f = .error e → ∀ j, f.cw &&& rowMask j ≠ rowMatch j)

/-- Decoding selects by CW only: frames with the same control word decode to the same row, or are both rejected for the
same reason (30_encoding.md R87). -/
def Obligations.DecodeLooksAtControlWordOnly : Prop :=
  ∀ f f' : Frame, f.cw = f'.cw → (decode f).map Instr.mnemonic = (decode f').map Instr.mnemonic

/-- The rejected control words are exactly those R88 lists (30_encoding.md R88). -/
def Obligations.ReservedWordsAreExactlyTheRejected : Prop :=
  ∀ f : Frame, (∃ e, decode f = .error e) ↔ ReservedWord f.cw

/-- A frame field that a command does not use has no part in what it decodes to (30_encoding.md R80, R82). -/
def Obligations.UnusedFieldsAreIgnored : Prop :=
  ∀ f f' : Frame, f.cw = f'.cw → (usesA f.cw = true → f.a = f'.a) →
    (usesIndexCount f.cw = true → f.idx = f'.idx ∧ f.cnt = f'.cnt) → (usesBufLen f.cw = true → f.blen = f'.blen) →
    decode f = decode f'

/-- Control words written out in the spec decode to the instructions they stand for, whatever the other fields hold
(30_encoding.md R86; 95_test_vectors.md section 2.7). -/
def Obligations.SampleWordsDecode : Prop :=
  ∀ (a : DWord) (idx cnt blen : Word),
    decode ⟨0x00000510, a, idx, cnt, blen⟩ = .ok (.wrUshort a .whole) ∧
    decode ⟨0x00001510, a, idx, cnt, blen⟩ = .ok (.wrUshort a (.field idx.toInt cnt.toInt)) ∧
    decode ⟨0x00000A11, a, idx, cnt, blen⟩ = .ok (.rdUlong .whole) ∧
    decode ⟨0x00002113, a, idx, cnt, blen⟩ = .ok (.rdaByte (.present blen.toNat) idx.toInt cnt.toInt) ∧
    decode ⟨0x00000113, a, idx, cnt, blen⟩ = .ok (.rdaByte .null idx.toInt cnt.toInt) ∧
    decode ⟨0x00000021, a, idx, cnt, blen⟩ = .ok (.setpos a.toInt)

/-! ### The step -/

/-- A step runs the decoded instruction: it takes the host's next command, brings its operand buffer into reach, and is
`exec` of the instruction the frame decodes to (00_scope.md R11). -/
def Obligations.StepRunsDecodedInstruction : Prop :=
  ∀ (s : State) (c : Command) (rest : List HostEvent) (i : Instr), s.pending = .command c :: rest →
    decode c.frame = .ok i → step s = exec i { s with pending := rest, buf := c.buf }

/-- The instruction that a table row's word decodes to is the one the next step runs (30_encoding.md R86). How a row's bits
become a presented frame is the model's choice (log entries 2 and 14). -/
def Obligations.PresentedTableWordRuns : Prop :=
  ∀ (s : State) (nbits w : Nat) (i : Instr), decodeTableWord nbits w = some i →
    step (s.withFetchWord nbits w) = exec i { s with buf := [] }

/-- A reserved control word answers IllegalCommand (code 7), open or closed, and changes nothing (60_exceptions.md R256). -/
def Obligations.ReservedWordAnswersIllegalCommand : Prop :=
  Status.illegalCommand.code = 7 ∧
  ∀ (s : State) (c : Command) (rest : List HostEvent), s.pending = .command c :: rest → ReservedWord c.frame.cw →
    step s = .next { s with pending := rest, buf := c.buf, answers := s.answers ++ [⟨⟨.illegalCommand, 0, 0⟩, c.buf⟩] }

/-- A hardware reset between commands puts the unit into the reset state and gives no response (70_reset_and_hazards.md
R280). That the host's fields stay is the model's choice (log entry 4). -/
def Obligations.HardwareResetBetweenCommands : Prop :=
  ∀ (s : State) (rest : List HostEvent), s.pending = .reset :: rest →
    step s = .next { s with pending := rest, mem := [], wc := 1, len := 0, wi := 0, bo := 0, isOpen := true }

/-- With nothing presented the unit stays as it is: the model's choice (log entry 3), from 00_scope.md R11. -/
def Obligations.StepWaitsForTheHost : Prop :=
  ∀ s : State, s.pending = [] → step s = .next s

/-- Each step takes exactly one event of the host, in the order presented, and each command gives exactly one answer; a
reset gives none (00_scope.md R11, 30_encoding.md R90). -/
def Obligations.OneEventOneAnswer : Prop :=
  ∀ s t : State, step s = .next t →
    t.pending = s.pending.tail ∧
    (∀ c rest, s.pending = .command c :: rest → ∃ r, t.answers = s.answers ++ [⟨r, t.buf⟩]) ∧
    (∀ rest, s.pending = .reset :: rest → t.answers = s.answers)

/-! ### Reset and the invariants -/

/-- The six components after reset (10_state.md R37). -/
def Obligations.ResetStateValues : Prop :=
  State.reset.wc = 1 ∧ readWord State.reset.mem 0 = 0x00000000 ∧ State.reset.len = 0 ∧ State.reset.wi = 0 ∧
  State.reset.bo = 0 ∧ State.reset.isOpen = true

/-- The invariants hold at reset (10_state.md R27; with the model's own choice of MAX_WORDS, log entry 5). -/
def Obligations.InvariantsHoldAtReset : Prop :=
  UnitInv State.reset

/-- Every step keeps the invariants I1 to I6 of 10_state.md R27, the bounds of MAX_WORDS and the canonical form of the
store, from every state that has them, whether the command succeeds or fails. The canonical form is the model's own (log
entry 6). -/
def Obligations.EveryStepKeepsInvariants : Prop :=
  ∀ s t : State, UnitInv s → step s = .next t → UnitInv t

/-- From a state with the invariants the unit goes on for ever: no run of any length faults or refuses, and the
invariants hold at its end (40_bitfield_primitives.md R125, 70_reset_and_hazards.md R283). That a step with nothing
presented counts as a step is the model's choice (log entry 3). -/
def Obligations.EveryRunGoesOn : Prop :=
  ∀ (n : Nat) (s : State), UnitInv s → ∃ t : State, runSteps n s = .next t ∧ UnitInv t

/-! ### Responses and failures -/

/-- Every command produces exactly one response; V and N are 0 on failure, N is 0 unless the command reads, V is 0 unless
it returns a value (30_encoding.md R90). A command does not touch what the host has still to present (00_scope.md R11; held
in the state by log entry 1), nor MAX_WORDS, a parameter and no state of the unit (00_scope.md R5, 10_state.md R35; held in
the state by log entry 5). -/
def Obligations.ResponseFrame : Prop :=
  ∀ (i : Instr) (s t : State), exec i s = .next t →
    ∃ r : Response, t.answers = s.answers ++ [⟨r, t.buf⟩] ∧ t.pending = s.pending ∧ t.maxWords = s.maxWords ∧
      (r.st ≠ .ok → r.v = 0 ∧ r.n = 0) ∧
      (kindOf i ≠ .read → kindOf i ≠ .arrayRead → r.n = 0) ∧
      (kindOf i ≠ .read → kindOf i ≠ .accessor → kindOf i ≠ .flag → r.v = 0)

/-- A failing command changes no component of the state and stores into no buffer: the state after it is the state before
it with the answer (status, 0, 0) delivered (60_exceptions.md R260). -/
def Obligations.FailureChangesNothing : Prop :=
  ∀ (i : Instr) (s t : State) (r : Response), exec i s = .next t → t.answers = s.answers ++ [⟨r, t.buf⟩] →
    r.st ≠ .ok → t = { s with answers := s.answers ++ [⟨⟨r.st, 0, 0⟩, s.buf⟩] }

/-- Which commands answer ClosedStream (code 1) on a closed unit and which do not, and that an open unit never answers it
(60_exceptions.md R251). -/
def Obligations.ClosedStreamExactlyWhenClosed : Prop :=
  Status.closedStream.code = 1 ∧
  (∀ i, needsOpen i = true ↔
    kindOf i ∈ [Kind.write, .read, .arrayWrite, .arrayRead, .accessor, .setPosition, .flush]) ∧
  ∀ (i : Instr) (s : State),
    (s.isOpen = false → needsOpen i = true → exec i s = .next (raise .closedStream s)) ∧
    (s.isOpen = false → needsOpen i = false →
      ∃ t r, exec i s = .next t ∧ t.answers = s.answers ++ [⟨r, t.buf⟩] ∧ r.st ≠ .closedStream) ∧
    (s.isOpen = true → ∀ t r, exec i s = .next t → t.answers = s.answers ++ [⟨r, t.buf⟩] → r.st ≠ .closedStream)

/-- A command answers OK or one of the failures that its row of R258's table allows it, the rows of the scalar commands for
F = 0 and F = 1 apart (60_exceptions.md R258); a whole-value scalar command and a command without operands never answer
InvalidArgument (R252), no legal command answers IllegalCommand (R258). The statuses have the codes of R250 and 30_encoding.md
R91, and none has code 6. -/
def Obligations.FailuresAreThoseOfTheTable : Prop :=
  (∀ (i : Instr) (s t : State) (r : Response), exec i s = .next t → t.answers = s.answers ++ [⟨r, t.buf⟩] →
    (r.st = .ok ∨ r.st ∈ mayRaise i) ∧ r.st ≠ .illegalCommand ∧
    (r.st = .invalidArgument →
      isFieldForm i = true ∨ kindOf i = .arrayWrite ∨ kindOf i = .arrayRead ∨ kindOf i = .initCapacity)) ∧
  Status.ok.code = 0 ∧ Status.closedStream.code = 1 ∧ Status.invalidArgument.code = 2 ∧ Status.nullArgument.code = 3 ∧
  Status.outOfRange.code = 4 ∧ Status.exhausted.code = 5 ∧ Status.illegalCommand.code = 7 ∧ ∀ st : Status, st.code ≠ 6

/-- What each kind of command leaves alone, in every state: the store, LEN and WC change by writes and creation only, the
cursor by reads, writes, SETPOS and creation, OPEN by CLOSE and creation, the operand buffer by RDA (10_state.md R23,
R24, R26, R32). -/
def Obligations.FrameByKind : Prop :=
  ∀ (i : Instr) (s t : State), exec i s = .next t →
    (¬ kindOf i ∈ [Kind.write, .arrayWrite, .init, .initCapacity] → t.mem = s.mem ∧ t.len = s.len ∧ t.wc = s.wc) ∧
    (¬ kindOf i ∈ [Kind.write, .read, .arrayWrite, .arrayRead, .setPosition, .init, .initCapacity] →
      t.wi = s.wi ∧ t.bo = s.bo) ∧
    (¬ kindOf i ∈ [Kind.close, .init, .initCapacity] → t.isOpen = s.isOpen) ∧
    (kindOf i ≠ .arrayRead → t.buf = s.buf)

/-- No command but a creation lowers LEN or WC (20_memory.md R61). -/
def Obligations.StreamNeverShrinks : Prop :=
  ∀ (i : Instr) (s t : State), kindOf i ≠ .init → kindOf i ≠ .initCapacity → exec i s = .next t →
    s.len ≤ t.len ∧ s.wc ≤ t.wc

/-- WC cannot be observed: two states that differ only in WC give, step by step, states that differ only in WC, so the
same responses (10_state.md R34(a)). -/
def Obligations.CapacityIsUnobservable : Prop :=
  ∀ (s t : State) (n : Nat), UnitInv s → UnitInv { s with wc := n } → step s = .next t →
    ∃ m, step { s with wc := n } = .next { t with wc := m }

/-! ### Scalar writes: WR.bool, WR.byte, WR.sbyte, WR.char, WR.short, WR.ushort, WR.int, WR.uint, WR.float, WR.long, WR.ulong -/

/-- An open unit with a legal field that fits the store completes WR.<ty>: the field's bits stand in the stream from the
cursor on, most significant first, the low half's part before the high half's; every other stream bit and every byte
that the field does not touch is unchanged; the cursor is past the field, LEN and WC as R114 and R59 say; no other
register changes; the answer is (OK, 0, 0) (41_scalar_write.md R140 to R152, 40_bitfield_primitives.md R117). -/
def Obligations.ScalarWriteStoresField : Prop :=
  ∀ (ty : ScalarTy) (a : DWord) (f : Form) (s : State), UnitInv s → s.isOpen = true → FieldOk ty f →
    s.pos + fieldBits ty f ≤ 32 * s.maxWords →
    ∃ u, exec (.wr ty a f) s = .next (respond 0 0 u) ∧
      Wrote s u (fieldBits ty f) (fun i => a.getLsbD (fieldBitIndex (fieldStart f) (fieldBits ty f) i)) ∧
      ∀ k, 8 * k + 8 ≤ s.pos ∨ s.pos + fieldBits ty f ≤ 8 * k → readByte u.mem k = readByte s.mem k

/-- When WR.<ty> fails, and with what, in the order of R259: closed, then a bad field, then a full store
(41_scalar_write.md R140, 20_memory.md R60). -/
def Obligations.ScalarWriteFailures : Prop :=
  ∀ (ty : ScalarTy) (a : DWord) (f : Form) (s : State),
    (s.isOpen = false → exec (.wr ty a f) s = .next (raise .closedStream s)) ∧
    (s.isOpen = true → ¬ FieldOk ty f → exec (.wr ty a f) s = .next (raise .invalidArgument s)) ∧
    (s.isOpen = true → FieldOk ty f → 32 * s.maxWords < s.pos + fieldBits ty f →
      exec (.wr ty a f) s = .next (raise .exhausted s))

/-- "`WR.<ty> v` behaves exactly as `WR.<ty> v, 0, width(ty)`", and likewise RD.<ty>, in every state (30_encoding.md R93). -/
def Obligations.WholeFormIsTheFullField : Prop :=
  ∀ (ty : ScalarTy) (a : DWord) (s : State),
    exec (.wr ty a .whole) s = exec (.wr ty a (.field 0 (width ty))) s ∧
    exec (.rd ty .whole) s = exec (.rd ty (.field 0 (width ty))) s

/-- A field of no bits succeeds and changes nothing, for a write and for a read (41_scalar_write.md R140(a),
42_scalar_read.md R160(b), 40_bitfield_primitives.md R117(g)). -/
def Obligations.EmptyFieldChangesNothing : Prop :=
  ∀ (ty : ScalarTy) (a : DWord) (f : Form) (s : State), s.isOpen = true → FieldOk ty f → fieldBits ty f = 0 →
    (s.pos ≤ 32 * s.maxWords → exec (.wr ty a f) s = .next (respond 0 0 s)) ∧
    exec (.rd ty f) s = .next (respond 0 0 s)

/-- Value bits outside the field are dropped: values that agree on the field write the same (70_reset_and_hazards.md R292,
41_scalar_write.md R140(b)). -/
def Obligations.BitsOutsideTheFieldAreDropped : Prop :=
  ∀ (ty : ScalarTy) (a a' : DWord) (f : Form) (s : State), UnitInv s →
    (∀ j, fieldStart f ≤ j → j < fieldStart f + fieldBits ty f → a.getLsbD j = a'.getLsbD j) →
    exec (.wr ty a f) s = exec (.wr ty a' f) s

/-- Types of one width are the same operation, in every state: signedness has no effect on the unit (30_encoding.md R84,
41_scalar_write.md R140(f)). -/
def Obligations.TypesOfOneWidthBehaveAlike : Prop :=
  ∀ (ty ty' : ScalarTy), width ty = width ty' →
    ∀ (a : DWord) (f : Form) (b : BufArg) (off cnt : Int) (s : State),
      exec (.wr ty a f) s = exec (.wr ty' a f) s ∧ exec (.rd ty f) s = exec (.rd ty' f) s ∧
      exec (.wra ty b off cnt) s = exec (.wra ty' b off cnt) s ∧ exec (.rda ty b off cnt) s = exec (.rda ty' b off cnt) s

/-- A byte written at a byte position packs big-endian into its word: with k the stream byte at the cursor, it becomes bits
`31-8(k mod 4) .. 24-8(k mod 4)` of `W[k div 4]`, it covers stream positions `8k .. 8k+7`, first bit most significant, and
every other stream byte, in the same place of its own word, stays (20_memory.md R52(a)). -/
def Obligations.ByteLandsAtItsStreamByte : Prop :=
  ∀ (a : DWord) (s : State), UnitInv s → s.isOpen = true → s.pos % 8 = 0 → s.pos + 8 ≤ 32 * s.maxWords →
    ∃ t, exec (.wrByte a .whole) s = .next t ∧
      (readWord t.mem (s.pos / 8 / 4)).extractLsb' (24 - 8 * (s.pos / 8 % 4)) 8 = a.extractLsb' 0 8 ∧
      readByte t.mem (s.pos / 8) = a.extractLsb' 0 8 ∧
      (∀ i, i < 8 → bitAt t.mem (s.pos + i) = a.getLsbD (7 - i)) ∧
      ∀ k, k ≠ s.pos / 8 →
        (readWord t.mem (k / 4)).extractLsb' (24 - 8 * (k % 4)) 8 =
          (readWord s.mem (k / 4)).extractLsb' (24 - 8 * (k % 4)) 8 ∧
        readByte t.mem k = readByte s.mem k

/-- A 64-bit value written at a word boundary puts its low half into that word and its high half into the next
(20_memory.md R52(c)). -/
def Obligations.UlongLiesLowHalfFirst : Prop :=
  ∀ (a : DWord) (s : State), UnitInv s → s.isOpen = true → s.pos % 32 = 0 → s.pos + 64 ≤ 32 * s.maxWords →
    ∃ t, exec (.wrUlong a .whole) s = .next t ∧ readWord t.mem (s.pos / 32) = a.extractLsb' 0 32 ∧
      readWord t.mem (s.pos / 32 + 1) = a.extractLsb' 32 32 ∧
      ∀ i, i ≠ s.pos / 32 → i ≠ s.pos / 32 + 1 → readWord t.mem i = readWord s.mem i

/-! ### Scalar reads: RD.bool, RD.byte, RD.sbyte, RD.char, RD.short, RD.ushort, RD.int, RD.uint, RD.float, RD.long, RD.ulong -/

/-- An open unit with a legal field completes RD.<ty>: N is the number of bits available, V holds them at value bits
`[bitIndex, bitIndex + N)` in stream order and 0 elsewhere, the cursor is past them, and nothing else changes
(42_scalar_read.md R160 to R172, 40_bitfield_primitives.md R119, R120). -/
def Obligations.ScalarReadReturnsField : Prop :=
  ∀ (ty : ScalarTy) (f : Form) (s : State), UnitInv s → s.isOpen = true → FieldOk ty f →
    ∃ v, exec (.rd ty f) s = .next (respond v (min (fieldBits ty f) (s.len - s.pos))
        { s with wi := (s.pos + min (fieldBits ty f) (s.len - s.pos)) / 32,
                 bo := (s.pos + min (fieldBits ty f) (s.len - s.pos)) % 32 }) ∧
      ReadAs s.mem s.pos (fieldStart f) (min (fieldBits ty f) (s.len - s.pos)) v

/-- When RD.<ty> fails, and with what: closed, then a bad field, before the end-of-stream test (42_scalar_read.md R160). -/
def Obligations.ScalarReadFailures : Prop :=
  ∀ (ty : ScalarTy) (f : Form) (s : State),
    (s.isOpen = false → exec (.rd ty f) s = .next (raise .closedStream s)) ∧
    (s.isOpen = true → ¬ FieldOk ty f → exec (.rd ty f) s = .next (raise .invalidArgument s))

/-- At the end of the stream a read is a success that returns no bits and changes nothing, a scalar read and an array read
alike, in every state (60_exceptions.md R257, 42_scalar_read.md R160(a), 43_array.md R193). -/
def Obligations.SoftEndOfStream : Prop :=
  ∀ (ty : ScalarTy) (f : Form) (bufLen : Nat) (off cnt : Int) (s : State), s.isOpen = true → s.len ≤ s.pos →
    (FieldOk ty f → exec (.rd ty f) s = .next (respond 0 0 s)) ∧
    (ArrayOk bufLen off cnt → exec (.rda ty (.present bufLen) off cnt) s = .next (respond 0 0 s))

/-- A read never accesses a word at index >= WC: from a state with the invariants RD.<ty> and RDA.<ty> answer, whatever
their operands, and the words beyond WC have no part in what they do. Over any store with the same words below WC they do
the same, and leave that store as it is (40_bitfield_primitives.md R118, 10_state.md R25). -/
def Obligations.ReadsAccessAllocatedWordsOnly : Prop :=
  ∀ (ty : ScalarTy) (f : Form) (b : BufArg) (off cnt : Int) (s : State) (m : List Host.Cell), UnitInv s →
    (∀ i, i < s.wc → readWord m i = readWord s.mem i) →
    (∃ t, exec (.rd ty f) s = .next t ∧ exec (.rd ty f) { s with mem := m } = .next { t with mem := m }) ∧
    ∃ t, exec (.rda ty b off cnt) s = .next t ∧ exec (.rda ty b off cnt) { s with mem := m } = .next { t with mem := m }

/-- Round trip: WR.<ty> x, bitIndex, count at P, then SETPOS P, then RD.<ty> bitIndex, count answers N = count and V the
field of x in place and zeros elsewhere (42_scalar_read.md R173). -/
def Obligations.WriteThenReadReturnsTheField : Prop :=
  ∀ (ty : ScalarTy) (x : DWord) (f : Form) (s : State), UnitInv s → s.isOpen = true → FieldOk ty f →
    s.pos + fieldBits ty f ≤ 32 * s.maxWords →
    ∃ t u v, exec (.wr ty x f) s = .next t ∧ exec (.setpos s.pos) t = .next u ∧
      exec (.rd ty f) u =
        .next (respond (x &&& (BitVec.ofNat 64 (2 ^ fieldBits ty f - 1) <<< fieldStart f)) (fieldBits ty f) v)

/-! ### Array writes: WRA.bool, WRA.byte, WRA.sbyte, WRA.char, WRA.short, WRA.ushort, WRA.int, WRA.uint, WRA.float, WRA.long, WRA.ulong -/

/-- An open unit with a legal range that fits the store completes WRA.<ty>: the elements offset, offset+1, ... go to the
stream one after another, each whole and in stream order; every other stream bit and every byte outside them is
unchanged; the buffer is unchanged; the answer is (OK, 0, 0) (43_array.md R180 to R191). -/
def Obligations.ArrayWriteStoresElements : Prop :=
  ∀ (ty : ScalarTy) (bufLen : Nat) (off cnt : Int) (s : State), UnitInv s → s.isOpen = true → ArrayOk bufLen off cnt →
    s.pos + cnt.toNat * width ty ≤ 32 * s.maxWords →
    ∃ u, exec (.wra ty (.present bufLen) off cnt) s = .next (respond 0 0 u) ∧
      Wrote s u (cnt.toNat * width ty) (fun x =>
        (bufGet s.buf (off.toNat + x / width ty)).getLsbD (fieldBitIndex 0 (width ty) (x % width ty))) ∧
      ∀ k, 8 * k + 8 ≤ s.pos ∨ s.pos + cnt.toNat * width ty ≤ 8 * k → readByte u.mem k = readByte s.mem k

/-- When WRA.<ty> fails, and with what, in the order of R259 (43_array.md R180, 60_exceptions.md R254). -/
def Obligations.ArrayWriteFailures : Prop :=
  ∀ (ty : ScalarTy) (bufLen : Nat) (off cnt : Int) (s : State),
    (s.isOpen = false → ∀ b, exec (.wra ty b off cnt) s = .next (raise .closedStream s)) ∧
    (s.isOpen = true → exec (.wra ty .null off cnt) s = .next (raise .nullArgument s)) ∧
    (s.isOpen = true → ¬ ArrayOk bufLen off cnt →
      exec (.wra ty (.present bufLen) off cnt) s = .next (raise .invalidArgument s)) ∧
    (s.isOpen = true → ArrayOk bufLen off cnt → 32 * s.maxWords < s.pos + cnt.toNat * width ty →
      exec (.wra ty (.present bufLen) off cnt) s = .next (raise .exhausted s))

/-! ### Array reads: RDA.bool, RDA.byte, RDA.sbyte, RDA.char, RDA.short, RDA.ushort, RDA.int, RDA.uint, RDA.float, RDA.long, RDA.ulong -/

/-- An open unit with a legal range completes RDA.<ty>: N bits are read, the cursor is past them, `ceil(N / w)` elements
from offset on hold them (the last perhaps short, its bits at the bottom and zeros above), every other element and
everything else is unchanged (43_array.md R193 to R204). -/
def Obligations.ArrayReadStoresElements : Prop :=
  ∀ (ty : ScalarTy) (bufLen : Nat) (off cnt : Int) (s : State), UnitInv s → s.isOpen = true → ArrayOk bufLen off cnt →
    ∃ buf', exec (.rda ty (.present bufLen) off cnt) s =
        .next (respond 0 (min (cnt.toNat * width ty) (s.len - s.pos))
          { s with wi := (s.pos + min (cnt.toNat * width ty) (s.len - s.pos)) / 32,
                   bo := (s.pos + min (cnt.toNat * width ty) (s.len - s.pos)) % 32, buf := buf' }) ∧
      ∀ e, if off.toNat ≤ e ∧
            e < off.toNat + (min (cnt.toNat * width ty) (s.len - s.pos) + width ty - 1) / width ty
        then ReadAs s.mem (s.pos + (e - off.toNat) * width ty) 0
          (min (width ty) (s.len - (s.pos + (e - off.toNat) * width ty))) (bufGet buf' e)
        else bufGet buf' e = bufGet s.buf e

/-- When RDA.<ty> fails, and with what, in the order of R259 (43_array.md R193, 60_exceptions.md R254). -/
def Obligations.ArrayReadFailures : Prop :=
  ∀ (ty : ScalarTy) (bufLen : Nat) (off cnt : Int) (s : State),
    (s.isOpen = false → ∀ b, exec (.rda ty b off cnt) s = .next (raise .closedStream s)) ∧
    (s.isOpen = true → exec (.rda ty .null off cnt) s = .next (raise .nullArgument s)) ∧
    (s.isOpen = true → ¬ ArrayOk bufLen off cnt →
      exec (.rda ty (.present bufLen) off cnt) s = .next (raise .invalidArgument s))

/-- Round trip through arrays: WRA.<ty> at P, SETPOS P, RDA.<ty> of the same range into the same buffer reads every bit
back: each element holds its own low `width(ty)` bits and no other element changes (43_array.md R180, R193;
42_scalar_read.md R173). -/
def Obligations.ArrayWriteThenReadReturnsTheElements : Prop :=
  ∀ (ty : ScalarTy) (bufLen : Nat) (off cnt : Int) (s : State), UnitInv s → s.isOpen = true → ArrayOk bufLen off cnt →
    s.pos + cnt.toNat * width ty ≤ 32 * s.maxWords →
    ∃ t u v, exec (.wra ty (.present bufLen) off cnt) s = .next t ∧ exec (.setpos s.pos) t = .next u ∧
      exec (.rda ty (.present bufLen) off cnt) u = .next (respond 0 (cnt.toNat * width ty) v) ∧
      ∀ e, bufGet v.buf e =
        if off.toNat ≤ e ∧ e < off.toNat + cnt.toNat then elementOf ty (bufGet s.buf e) else bufGet s.buf e

/-! ### Position and length -/

/-- GETPOS and GETLEN answer the cursor and the length and change nothing; closed, they answer ClosedStream
(44_position_length.md R210, R212). -/
def Obligations.PositionAndLengthAnswers : Prop :=
  ∀ s : State,
    (s.isOpen = true →
      exec .getpos s = .next (respond (BitVec.ofNat 64 (s.wi * 32 + s.bo)) 0 s) ∧
      exec .getlen s = .next (respond (BitVec.ofNat 64 s.len) 0 s)) ∧
    (s.isOpen = false →
      exec .getpos s = .next (raise .closedStream s) ∧ exec .getlen s = .next (raise .closedStream s))

/-- LEN8, LEN16, LEN32, LEN64 answer `ceil(LEN / width)` and change nothing (44_position_length.md R213 to R216). -/
def Obligations.DerivedLengthsAreCeilings : Prop :=
  ∀ s : State, s.isOpen = true →
    exec .len8 s = .next (respond (BitVec.ofNat 64 ((s.len + 7) / 8)) 0 s) ∧
    exec .len16 s = .next (respond (BitVec.ofNat 64 ((s.len + 15) / 16)) 0 s) ∧
    exec .len32 s = .next (respond (BitVec.ofNat 64 ((s.len + 31) / 32)) 0 s) ∧
    exec .len64 s = .next (respond (BitVec.ofNat 64 ((s.len + 63) / 64)) 0 s)

/-- SETPOS v sets WI = v / 32 and BO = v mod 32 for v in 0 .. LEN and changes nothing else (44_position_length.md R211). -/
def Obligations.SetPositionMovesTheCursor : Prop :=
  ∀ (v : Int) (s : State), s.isOpen = true → 0 ≤ v → v ≤ s.len →
    exec (.setpos v) s = .next (respond 0 0 { s with wi := v.toNat / 32, bo := v.toNat % 32 })

/-- SETPOS v answers OutOfRange (code 4) exactly when an open unit is given a v outside 0 .. LEN, and then changes nothing
(60_exceptions.md R253). -/
def Obligations.SetPositionOutOfRange : Prop :=
  Status.outOfRange.code = 4 ∧
  (∀ (v : Int) (s : State), s.isOpen = true → (v < 0 ∨ v > s.len) →
    exec (.setpos v) s = .next (raise .outOfRange s)) ∧
  (∀ (i : Instr) (s t : State) (r : Response), exec i s = .next t → t.answers = s.answers ++ [⟨r, t.buf⟩] →
    r.st = .outOfRange → s.isOpen = true ∧ ∃ v : Int, i = .setpos v ∧ (v < 0 ∨ v > s.len))

/-! ### Creation, closing, flush, flags -/

/-- INIT makes the default stream, open or closed before: one zero word, LEN 0, cursor 0, OPEN 1, which is what a hardware
reset leaves (45_lifecycle_flags.md R230). -/
def Obligations.InitCreatesTheDefaultStream : Prop :=
  ∀ s : State,
    exec .init s = .next (respond 0 0 { s with mem := [], wc := 1, len := 0, wi := 0, bo := 0, isOpen := true }) ∧
    exec .init s = .next (respond 0 0 (hardReset s)) ∧ ∀ i, readWord [] i = 0

/-- INITC cap: a capacity of 0 or less is InvalidArgument, one that needs more than MAX_WORDS words is Exhausted, any
other makes a stream of `ceil(cap / 32)` zero words, open or closed before (45_lifecycle_flags.md R231). -/
def Obligations.InitcCreatesTheCapacity : Prop :=
  ∀ (cap : Int) (s : State),
    (cap ≤ 0 → exec (.initc cap) s = .next (raise .invalidArgument s)) ∧
    (0 < cap → s.maxWords < (cap.toNat + 31) / 32 → exec (.initc cap) s = .next (raise .exhausted s)) ∧
    (0 < cap → (cap.toNat + 31) / 32 ≤ s.maxWords →
      exec (.initc cap) s = .next (respond 0 0
        { s with mem := [], wc := (cap.toNat + 31) / 32, len := 0, wi := 0, bo := 0, isOpen := true }))

/-- CLOSE clears OPEN and keeps everything else, open or closed before (45_lifecycle_flags.md R232). -/
def Obligations.CloseClearsOpen : Prop :=
  ∀ s : State, exec .close s = .next (respond 0 0 { s with isOpen := false })

/-- FLUSH does nothing on an open unit and answers ClosedStream on a closed one (45_lifecycle_flags.md R233). -/
def Obligations.FlushIsANoOp : Prop :=
  ∀ s : State, (s.isOpen = true → exec .flush s = .next (respond 0 0 s)) ∧
    (s.isOpen = false → exec .flush s = .next (raise .closedStream s))

/-- CANREAD and CANWRITE answer OPEN, the other three flags 0, on any unit, and nothing changes (45_lifecycle_flags.md
R234 to R238). -/
def Obligations.FlagsAnswer : Prop :=
  ∀ s : State,
    exec .canread s = .next (respond (if s.isOpen then 1 else 0) 0 s) ∧
    exec .canwrite s = .next (respond (if s.isOpen then 1 else 0) 0 s) ∧
    exec .canseek s = .next (respond 0 0 s) ∧ exec .cansetlen s = .next (respond 0 0 s) ∧
    exec .canflush s = .next (respond 0 0 s)

/-- The 33 entries of the mask table are `2^n - 1` (10_state.md R29). -/
def Obligations.MaskTableEntries : Prop :=
  Config.maskEntries = 33 ∧ (∀ n, n < Config.maskEntries → (mask n).toNat = 2 ^ n - 1) ∧
  mask 0 = 0x00000000 ∧ mask 1 = 0x00000001 ∧ mask 2 = 0x00000003 ∧ mask 31 = 0x7FFFFFFF ∧ mask 32 = 0xFFFFFFFF
end

