-- ==== Sys2Proof/Laws/Store.lean ====
section
/-! SUPPORT. The laws of the backing store: a read after a write, the canonical form, and how bytes, words and stream
bits determine one another. -/

namespace Sys2Proof.Machine

/-! ### Bytes -/

/-- Below the first address the list may hold, every byte is unlisted. -/
theorem readByte_below {m : List Host.Cell} {lo k : Nat} (h : memoryWfFrom lo m = true) (hk : k < lo) :
    readByte m k = 0 := by
  induction m generalizing lo with
  | nil => rfl
  | cons c t ih =>
    obtain ⟨b, x⟩ := c
    simp only [memoryWfFrom, Bool.and_eq_true, decide_eq_true_eq] at h
    simp only [readByte]
    rw [if_neg (by omega)]
    exact ih h.2 (by omega)

theorem memoryWfFrom_weaken {m : List Host.Cell} {lo lo' : Nat} (h : memoryWfFrom lo m = true) (hl : lo' ≤ lo) :
    memoryWfFrom lo' m = true := by
  cases m with
  | nil => rfl
  | cons c t =>
    obtain ⟨b, x⟩ := c
    simp only [memoryWfFrom, Bool.and_eq_true, decide_eq_true_eq] at h ⊢
    exact ⟨⟨by omega, h.1.2⟩, h.2⟩

/-- A read after a write, over a list in canonical form. -/
theorem readByte_writeByte_from {m : List Host.Cell} {lo : Nat} (h : memoryWfFrom lo m = true) (k : Nat) (v : Byte)
    (j : Nat) : readByte (writeByte m k v) j = if j = k then v else readByte m j := by
  induction m generalizing lo with
  | nil =>
    by_cases hv : v = 0 <;> simp only [writeByte, hv, if_true, if_false, readByte]
    split <;> rfl
  | cons c t ih =>
    obtain ⟨b, x⟩ := c
    simp only [memoryWfFrom, Bool.and_eq_true, decide_eq_true_eq] at h
    have hlow : ∀ i, i < b + 1 → readByte t i = 0 := fun i hi => readByte_below h.2 hi
    simp only [writeByte]
    split
    · split
      · rename_i hkb hv
        by_cases hj : j = k
        · simp only [readByte, hj, if_true, if_neg (show k ≠ b by omega), hlow k (by omega), hv]
        · simp only [readByte, if_neg hj]
      · by_cases hj : j = k <;> simp only [readByte, hj, if_true, if_false]
    · split
      · rename_i hkb hke
        subst hke
        split
        · rename_i hv
          by_cases hj : j = k
          · simp only [hj, if_true, hlow k (by omega), hv]
          · simp only [readByte, if_neg hj]
        · by_cases hj : j = k <;> simp only [readByte, hj, if_true, if_false]
      · rename_i hkb hke
        simp only [readByte, ih h.2]
        by_cases hj : j = b
        · rw [if_pos hj, if_neg (by omega), if_pos hj]
        · rw [if_neg hj, if_neg hj]

/-- A write keeps the canonical form from any address on that covers it. -/
theorem memoryWfFrom_writeByte {m : List Host.Cell} {lo k : Nat} (h : memoryWfFrom lo m = true) (hk : lo ≤ k)
    (v : Byte) : memoryWfFrom lo (writeByte m k v) = true := by
  induction m generalizing lo with
  | nil =>
    simp only [writeByte]
    split
    · rfl
    · rename_i hv
      simp only [memoryWfFrom, Bool.and_eq_true, decide_eq_true_eq]
      exact ⟨⟨hk, hv⟩, trivial⟩
  | cons c t ih =>
    obtain ⟨b, x⟩ := c
    have h' := h
    simp only [memoryWfFrom, Bool.and_eq_true, decide_eq_true_eq] at h
    simp only [writeByte]
    split
    · split
      · exact h'
      · rename_i hkb hv
        simp only [memoryWfFrom, Bool.and_eq_true, decide_eq_true_eq]
        exact ⟨⟨hk, hv⟩, ⟨by omega, h.1.2⟩, h.2⟩
    · split
      · rename_i hke
        split
        · exact memoryWfFrom_weaken h.2 (by omega)
        · rename_i hv
          simp only [memoryWfFrom, Bool.and_eq_true, decide_eq_true_eq]
          exact ⟨⟨hk, hv⟩, hke ▸ h.2⟩
      · simp only [memoryWfFrom, Bool.and_eq_true, decide_eq_true_eq]
        exact ⟨h.1, ih h.2 (by omega)⟩

/-- A byte read after a byte write gives the byte written at its address and the old byte elsewhere. -/
theorem readByte_writeByte {m : List Host.Cell} (h : Memory.wf m = true) (k : Nat) (v : Byte) (j : Nat) :
    readByte (writeByte m k v) j = if j = k then v else readByte m j :=
  readByte_writeByte_from h k v j

/-- A byte write keeps the canonical form. -/
theorem wf_writeByte {m : List Host.Cell} (h : Memory.wf m = true) (k : Nat) (v : Byte) :
    Memory.wf (writeByte m k v) = true :=
  memoryWfFrom_writeByte h (Nat.zero_le k) v

/-- Two lists in canonical form that read alike at every address are the same list. -/
theorem ext_from {m m' : List Host.Cell} {lo : Nat} (h : memoryWfFrom lo m = true) (h' : memoryWfFrom lo m' = true)
    (heq : ∀ k, readByte m k = readByte m' k) : m = m' := by
  induction m generalizing lo m' with
  | nil =>
    cases m' with
    | nil => rfl
    | cons c t =>
      obtain ⟨b, x⟩ := c
      simp only [memoryWfFrom, Bool.and_eq_true, decide_eq_true_eq] at h'
      exact absurd (by simpa [readByte] using (heq b).symm) h'.1.2
  | cons c t ih =>
    obtain ⟨b, x⟩ := c
    simp only [memoryWfFrom, Bool.and_eq_true, decide_eq_true_eq] at h
    cases m' with
    | nil => exact absurd (by simpa [readByte] using heq b) h.1.2
    | cons c' t' =>
      obtain ⟨b', x'⟩ := c'
      simp only [memoryWfFrom, Bool.and_eq_true, decide_eq_true_eq] at h'
      have hb : b = b' := by
        rcases Nat.lt_trichotomy b b' with hlt | he | hgt
        · have e := heq b
          simp only [readByte, if_true, if_neg (show b ≠ b' by omega)] at e
          rw [readByte_below h'.2 (by omega)] at e
          exact absurd e h.1.2
        · exact he
        · have e := heq b'
          simp only [readByte, if_true, if_neg (show b' ≠ b by omega)] at e
          rw [readByte_below h.2 (by omega)] at e
          exact absurd e.symm h'.1.2
      subst hb
      have hx : x = x' := by simpa [readByte] using heq b
      subst hx
      congr 1
      refine ih h.2 h'.2 fun k => ?_
      by_cases hk : k = b
      · subst hk
        rw [readByte_below h.2 (by omega), readByte_below h'.2 (by omega)]
      · simpa [readByte, hk] using heq k

/-- Equal stores are equal data. -/
theorem memory_ext {m m' : List Host.Cell} (h : Memory.wf m = true) (h' : Memory.wf m' = true)
    (heq : ∀ k, readByte m k = readByte m' k) : m = m' :=
  ext_from h h' heq

/-! ### Words -/

/-- A word write keeps the canonical form. -/
theorem wf_writeWord {m : List Host.Cell} (h : Memory.wf m = true) (i : Nat) (w : Word) :
    Memory.wf (writeWord m i w) = true :=
  wf_writeByte (wf_writeByte (wf_writeByte (wf_writeByte h _ _) _ _) _ _) _ _

/-- The bytes of a store after a word write. -/
theorem readByte_writeWord {m : List Host.Cell} (h : Memory.wf m = true) (i : Nat) (w : Word) (k : Nat) :
    readByte (writeWord m i w) k =
      if k / 4 = i then w.extractLsb' (24 - 8 * (k % 4)) 8 else readByte m k := by
  unfold writeWord
  rw [readByte_writeByte (wf_writeByte (wf_writeByte (wf_writeByte h _ _) _ _) _ _),
    readByte_writeByte (wf_writeByte (wf_writeByte h _ _) _ _), readByte_writeByte (wf_writeByte h _ _),
    readByte_writeByte h]
  by_cases hk : k / 4 = i
  · have : k % 4 = 0 ∨ k % 4 = 1 ∨ k % 4 = 2 ∨ k % 4 = 3 := by omega
    rw [if_pos hk]
    rcases this with hr | hr | hr | hr <;> rw [hr]
    · rw [if_neg (by omega), if_neg (by omega), if_neg (by omega), if_pos (by omega)]
    · rw [if_neg (by omega), if_neg (by omega), if_pos (by omega)]
    · rw [if_neg (by omega), if_pos (by omega)]
    · rw [if_pos (by omega)]
  · rw [if_neg (by omega), if_neg (by omega), if_neg (by omega), if_neg (by omega), if_neg hk]

/-- A word bit is a bit of the byte that holds it (20_memory.md R52(a)). -/
theorem getLsbD_readWord (m : List Host.Cell) (i j : Nat) (hj : j < 32) :
    (readWord m i).getLsbD j = (readByte m (4 * i + (3 - j / 8))).getLsbD (j % 8) := by
  have h4 : j / 8 = 0 ∨ j / 8 = 1 ∨ j / 8 = 2 ∨ j / 8 = 3 := by omega
  unfold readWord
  simp only [BitVec.getLsbD_append]
  rcases h4 with h | h | h | h
  · rw [if_pos (by omega), h, show j % 8 = j by omega]
  · rw [if_neg (by omega), if_pos (by omega), h, show j % 8 = j - 8 by omega]
  · rw [if_neg (by omega), if_neg (by omega), if_pos (by omega), h, show j % 8 = j - 8 - 8 by omega]
  · rw [if_neg (by omega), if_neg (by omega), if_neg (by omega), h, show j % 8 = j - 8 - 8 - 8 by omega]
    rfl

/-- A word read after a word write gives the word written at its index and the old word elsewhere. -/
theorem readWord_writeWord {m : List Host.Cell} (h : Memory.wf m = true) (i : Nat) (w : Word) (j : Nat) :
    readWord (writeWord m i w) j = if j = i then w else readWord m j := by
  apply BitVec.eq_of_getLsbD_eq
  intro n hn
  rw [getLsbD_readWord _ _ _ hn, readByte_writeWord h]
  by_cases hj : j = i
  · subst hj
    rw [if_pos (by omega), if_pos rfl, BitVec.getLsbD_extractLsb']
    have : 24 - 8 * ((4 * j + (3 - n / 8)) % 4) + n % 8 = n := by omega
    simp only [this, show n % 8 < 8 by omega, decide_true, Bool.true_and]
  · rw [if_neg (by omega), if_neg hj, getLsbD_readWord _ _ _ hn]

/-! ### Stream bits -/

/-- A stream bit is a bit of the stream byte that covers it (20_memory.md R52(a)). -/
theorem bitAt_eq_byte (m : List Host.Cell) (p : Nat) :
    bitAt m p = (readByte m (p / 8)).getLsbD (7 - p % 8) := by
  unfold bitAt
  rw [getLsbD_readWord _ _ _ (by omega)]
  congr 1
  · congr 1; omega
  · omega

/-- Stream byte `k` is bits `31-8(k mod 4) .. 24-8(k mod 4)` of word `k div 4` (20_memory.md R52(a)). -/
theorem extractLsb'_readWord (m : List Host.Cell) (k : Nat) :
    (readWord m (k / 4)).extractLsb' (24 - 8 * (k % 4)) 8 = readByte m k := by
  apply BitVec.eq_of_getLsbD_eq
  intro j hj
  rw [BitVec.getLsbD_extractLsb', getLsbD_readWord _ _ _ (by omega),
    show 4 * (k / 4) + (3 - (24 - 8 * (k % 4) + j) / 8) = k by omega, show (24 - 8 * (k % 4) + j) % 8 = j by omega]
  simp [hj]

/-- A byte is determined by its eight stream bits. -/
theorem readByte_eq_of_bits {m m' : List Host.Cell} {k : Nat}
    (h : ∀ p, 8 * k ≤ p → p < 8 * k + 8 → bitAt m p = bitAt m' p) : readByte m k = readByte m' k := by
  apply BitVec.eq_of_getLsbD_eq
  intro j hj
  have e := h (8 * k + (7 - j)) (by omega) (by omega)
  rw [bitAt_eq_byte, bitAt_eq_byte] at e
  rwa [show (8 * k + (7 - j)) / 8 = k by omega, show 7 - (8 * k + (7 - j)) % 8 = j by omega] at e

/-- Stores in canonical form with the same stream bits are the same. -/
theorem memory_ext_bits {m m' : List Host.Cell} (h : Memory.wf m = true) (h' : Memory.wf m' = true)
    (heq : ∀ p, bitAt m p = bitAt m' p) : m = m' :=
  memory_ext h h' fun _ => readByte_eq_of_bits fun p _ _ => heq p

/-- The stream bits after a word write (20_memory.md R51). -/
theorem bitAt_writeWord {m : List Host.Cell} (h : Memory.wf m = true) (i : Nat) (w : Word) (p : Nat) :
    bitAt (writeWord m i w) p = if p / 32 = i then w.getLsbD (31 - p % 32) else bitAt m p := by
  unfold bitAt
  rw [readWord_writeWord h]
  split <;> rfl

/-- An empty store reads 0 everywhere. -/
@[simp] theorem bitAt_nil (p : Nat) : bitAt [] p = false := by
  rw [bitAt_eq_byte]
  simp [readByte]

@[simp] theorem wf_nil : Memory.wf [] = true := rfl

/-- The reset state's store has the canonical form. -/
theorem reset_mem_wf : Memory.wf State.reset.mem = true := rfl

end Sys2Proof.Machine
end

