-- ==== Sys2Proof/Laws/State.lean ====
section
/-! SUPPORT. One lemma per field and update: what each named operation of Machine/Ops.lean leaves in each field of the
state, so that no later proof unfolds a record update. -/

namespace Sys2Proof.Machine

@[simp] theorem deliver_mem (r : Response) (s : State) : (deliver r s).mem = s.mem := rfl
@[simp] theorem deliver_wc (r : Response) (s : State) : (deliver r s).wc = s.wc := rfl
@[simp] theorem deliver_len (r : Response) (s : State) : (deliver r s).len = s.len := rfl
@[simp] theorem deliver_wi (r : Response) (s : State) : (deliver r s).wi = s.wi := rfl
@[simp] theorem deliver_bo (r : Response) (s : State) : (deliver r s).bo = s.bo := rfl
@[simp] theorem deliver_isOpen (r : Response) (s : State) : (deliver r s).isOpen = s.isOpen := rfl
@[simp] theorem deliver_maxWords (r : Response) (s : State) : (deliver r s).maxWords = s.maxWords := rfl
@[simp] theorem deliver_pending (r : Response) (s : State) : (deliver r s).pending = s.pending := rfl
@[simp] theorem deliver_buf (r : Response) (s : State) : (deliver r s).buf = s.buf := rfl
@[simp] theorem deliver_answers (r : Response) (s : State) : (deliver r s).answers = s.answers ++ [⟨r, s.buf⟩] := rfl

@[simp] theorem respond_mem (v : DWord) (n : Nat) (s : State) : (respond v n s).mem = s.mem := rfl
@[simp] theorem respond_wc (v : DWord) (n : Nat) (s : State) : (respond v n s).wc = s.wc := rfl
@[simp] theorem respond_len (v : DWord) (n : Nat) (s : State) : (respond v n s).len = s.len := rfl
@[simp] theorem respond_wi (v : DWord) (n : Nat) (s : State) : (respond v n s).wi = s.wi := rfl
@[simp] theorem respond_bo (v : DWord) (n : Nat) (s : State) : (respond v n s).bo = s.bo := rfl
@[simp] theorem respond_isOpen (v : DWord) (n : Nat) (s : State) : (respond v n s).isOpen = s.isOpen := rfl
@[simp] theorem respond_maxWords (v : DWord) (n : Nat) (s : State) : (respond v n s).maxWords = s.maxWords := rfl
@[simp] theorem respond_pending (v : DWord) (n : Nat) (s : State) : (respond v n s).pending = s.pending := rfl
@[simp] theorem respond_buf (v : DWord) (n : Nat) (s : State) : (respond v n s).buf = s.buf := rfl
@[simp] theorem respond_answers (v : DWord) (n : Nat) (s : State) : (respond v n s).answers = s.answers ++ [⟨⟨.ok, v, BitVec.ofNat 64 n⟩, s.buf⟩] := rfl

@[simp] theorem raise_mem (st : Status) (s : State) : (raise st s).mem = s.mem := rfl
@[simp] theorem raise_wc (st : Status) (s : State) : (raise st s).wc = s.wc := rfl
@[simp] theorem raise_len (st : Status) (s : State) : (raise st s).len = s.len := rfl
@[simp] theorem raise_wi (st : Status) (s : State) : (raise st s).wi = s.wi := rfl
@[simp] theorem raise_bo (st : Status) (s : State) : (raise st s).bo = s.bo := rfl
@[simp] theorem raise_isOpen (st : Status) (s : State) : (raise st s).isOpen = s.isOpen := rfl
@[simp] theorem raise_maxWords (st : Status) (s : State) : (raise st s).maxWords = s.maxWords := rfl
@[simp] theorem raise_pending (st : Status) (s : State) : (raise st s).pending = s.pending := rfl
@[simp] theorem raise_buf (st : Status) (s : State) : (raise st s).buf = s.buf := rfl
@[simp] theorem raise_answers (st : Status) (s : State) : (raise st s).answers = s.answers ++ [⟨⟨st, 0, 0⟩, s.buf⟩] := rfl

@[simp] theorem setCursor_mem (p : Nat) (s : State) : (setCursor p s).mem = s.mem := rfl
@[simp] theorem setCursor_wc (p : Nat) (s : State) : (setCursor p s).wc = s.wc := rfl
@[simp] theorem setCursor_len (p : Nat) (s : State) : (setCursor p s).len = s.len := rfl
@[simp] theorem setCursor_wi (p : Nat) (s : State) : (setCursor p s).wi = p >>> 5 := rfl
@[simp] theorem setCursor_bo (p : Nat) (s : State) : (setCursor p s).bo = p &&& 31 := rfl
@[simp] theorem setCursor_isOpen (p : Nat) (s : State) : (setCursor p s).isOpen = s.isOpen := rfl
@[simp] theorem setCursor_maxWords (p : Nat) (s : State) : (setCursor p s).maxWords = s.maxWords := rfl
@[simp] theorem setCursor_pending (p : Nat) (s : State) : (setCursor p s).pending = s.pending := rfl
@[simp] theorem setCursor_buf (p : Nat) (s : State) : (setCursor p s).buf = s.buf := rfl
@[simp] theorem setCursor_answers (p : Nat) (s : State) : (setCursor p s).answers = s.answers := rfl

@[simp] theorem create_mem (n : Nat) (s : State) : (create n s).mem = [] := rfl
@[simp] theorem create_wc (n : Nat) (s : State) : (create n s).wc = n := rfl
@[simp] theorem create_len (n : Nat) (s : State) : (create n s).len = 0 := rfl
@[simp] theorem create_wi (n : Nat) (s : State) : (create n s).wi = 0 := rfl
@[simp] theorem create_bo (n : Nat) (s : State) : (create n s).bo = 0 := rfl
@[simp] theorem create_isOpen (n : Nat) (s : State) : (create n s).isOpen = true := rfl
@[simp] theorem create_maxWords (n : Nat) (s : State) : (create n s).maxWords = s.maxWords := rfl
@[simp] theorem create_pending (n : Nat) (s : State) : (create n s).pending = s.pending := rfl
@[simp] theorem create_buf (n : Nat) (s : State) : (create n s).buf = s.buf := rfl
@[simp] theorem create_answers (n : Nat) (s : State) : (create n s).answers = s.answers := rfl

@[simp] theorem hardReset_mem  (s : State) : (hardReset s).mem = [] := rfl
@[simp] theorem hardReset_wc  (s : State) : (hardReset s).wc = Config.defaultCapWords := rfl
@[simp] theorem hardReset_len  (s : State) : (hardReset s).len = 0 := rfl
@[simp] theorem hardReset_wi  (s : State) : (hardReset s).wi = 0 := rfl
@[simp] theorem hardReset_bo  (s : State) : (hardReset s).bo = 0 := rfl
@[simp] theorem hardReset_isOpen  (s : State) : (hardReset s).isOpen = true := rfl
@[simp] theorem hardReset_maxWords  (s : State) : (hardReset s).maxWords = s.maxWords := rfl
@[simp] theorem hardReset_pending  (s : State) : (hardReset s).pending = s.pending := rfl
@[simp] theorem hardReset_buf  (s : State) : (hardReset s).buf = s.buf := rfl
@[simp] theorem hardReset_answers  (s : State) : (hardReset s).answers = s.answers := rfl

@[simp] theorem present_mem (c : Command) (rest : List HostEvent) (s : State) : (present c rest s).mem = s.mem := rfl
@[simp] theorem present_wc (c : Command) (rest : List HostEvent) (s : State) : (present c rest s).wc = s.wc := rfl
@[simp] theorem present_len (c : Command) (rest : List HostEvent) (s : State) : (present c rest s).len = s.len := rfl
@[simp] theorem present_wi (c : Command) (rest : List HostEvent) (s : State) : (present c rest s).wi = s.wi := rfl
@[simp] theorem present_bo (c : Command) (rest : List HostEvent) (s : State) : (present c rest s).bo = s.bo := rfl
@[simp] theorem present_isOpen (c : Command) (rest : List HostEvent) (s : State) : (present c rest s).isOpen = s.isOpen := rfl
@[simp] theorem present_maxWords (c : Command) (rest : List HostEvent) (s : State) : (present c rest s).maxWords = s.maxWords := rfl
@[simp] theorem present_pending (c : Command) (rest : List HostEvent) (s : State) : (present c rest s).pending = rest := rfl
@[simp] theorem present_buf (c : Command) (rest : List HostEvent) (s : State) : (present c rest s).buf = c.buf := rfl
@[simp] theorem present_answers (c : Command) (rest : List HostEvent) (s : State) : (present c rest s).answers = s.answers := rfl

@[simp] theorem memWrite_mem (i : Nat) (w : Word) (s : State) : (memWrite s i w).mem = writeWord s.mem i w := rfl
@[simp] theorem memWrite_wc (i : Nat) (w : Word) (s : State) : (memWrite s i w).wc = s.wc := rfl
@[simp] theorem memWrite_len (i : Nat) (w : Word) (s : State) : (memWrite s i w).len = s.len := rfl
@[simp] theorem memWrite_wi (i : Nat) (w : Word) (s : State) : (memWrite s i w).wi = s.wi := rfl
@[simp] theorem memWrite_bo (i : Nat) (w : Word) (s : State) : (memWrite s i w).bo = s.bo := rfl
@[simp] theorem memWrite_isOpen (i : Nat) (w : Word) (s : State) : (memWrite s i w).isOpen = s.isOpen := rfl
@[simp] theorem memWrite_maxWords (i : Nat) (w : Word) (s : State) : (memWrite s i w).maxWords = s.maxWords := rfl
@[simp] theorem memWrite_pending (i : Nat) (w : Word) (s : State) : (memWrite s i w).pending = s.pending := rfl
@[simp] theorem memWrite_buf (i : Nat) (w : Word) (s : State) : (memWrite s i w).buf = s.buf := rfl
@[simp] theorem memWrite_answers (i : Nat) (w : Word) (s : State) : (memWrite s i w).answers = s.answers := rfl

@[simp] theorem bufWrite_mem (ty : ScalarTy) (i : Nat) (v : DWord) (s : State) : (bufWrite ty i v s).mem = s.mem := rfl
@[simp] theorem bufWrite_wc (ty : ScalarTy) (i : Nat) (v : DWord) (s : State) : (bufWrite ty i v s).wc = s.wc := rfl
@[simp] theorem bufWrite_len (ty : ScalarTy) (i : Nat) (v : DWord) (s : State) : (bufWrite ty i v s).len = s.len := rfl
@[simp] theorem bufWrite_wi (ty : ScalarTy) (i : Nat) (v : DWord) (s : State) : (bufWrite ty i v s).wi = s.wi := rfl
@[simp] theorem bufWrite_bo (ty : ScalarTy) (i : Nat) (v : DWord) (s : State) : (bufWrite ty i v s).bo = s.bo := rfl
@[simp] theorem bufWrite_isOpen (ty : ScalarTy) (i : Nat) (v : DWord) (s : State) : (bufWrite ty i v s).isOpen = s.isOpen := rfl
@[simp] theorem bufWrite_maxWords (ty : ScalarTy) (i : Nat) (v : DWord) (s : State) : (bufWrite ty i v s).maxWords = s.maxWords := rfl
@[simp] theorem bufWrite_pending (ty : ScalarTy) (i : Nat) (v : DWord) (s : State) : (bufWrite ty i v s).pending = s.pending := rfl
@[simp] theorem bufWrite_buf (ty : ScalarTy) (i : Nat) (v : DWord) (s : State) : (bufWrite ty i v s).buf = bufSet s.buf i (elementOf ty v) := rfl
@[simp] theorem bufWrite_answers (ty : ScalarTy) (i : Nat) (v : DWord) (s : State) : (bufWrite ty i v s).answers = s.answers := rfl

@[simp] theorem advance_mem (k : Nat) (s : State) : (advance k s).mem = s.mem := by
  unfold advance; split <;> rfl
@[simp] theorem advance_wc (k : Nat) (s : State) : (advance k s).wc = s.wc := by
  unfold advance; split <;> rfl
@[simp] theorem advance_len (k : Nat) (s : State) : (advance k s).len = s.len := by
  unfold advance; split <;> rfl
@[simp] theorem advance_isOpen (k : Nat) (s : State) : (advance k s).isOpen = s.isOpen := by
  unfold advance; split <;> rfl
@[simp] theorem advance_maxWords (k : Nat) (s : State) : (advance k s).maxWords = s.maxWords := by
  unfold advance; split <;> rfl
@[simp] theorem advance_pending (k : Nat) (s : State) : (advance k s).pending = s.pending := by
  unfold advance; split <;> rfl
@[simp] theorem advance_buf (k : Nat) (s : State) : (advance k s).buf = s.buf := by
  unfold advance; split <;> rfl
@[simp] theorem advance_answers (k : Nat) (s : State) : (advance k s).answers = s.answers := by
  unfold advance; split <;> rfl

@[simp] theorem grow_len (s : State) : (grow s).len = s.len := by
  unfold grow; split <;> rfl
@[simp] theorem grow_wi (s : State) : (grow s).wi = s.wi := by
  unfold grow; split <;> rfl
@[simp] theorem grow_bo (s : State) : (grow s).bo = s.bo := by
  unfold grow; split <;> rfl
@[simp] theorem grow_isOpen (s : State) : (grow s).isOpen = s.isOpen := by
  unfold grow; split <;> rfl
@[simp] theorem grow_maxWords (s : State) : (grow s).maxWords = s.maxWords := by
  unfold grow; split <;> rfl
@[simp] theorem grow_pending (s : State) : (grow s).pending = s.pending := by
  unfold grow; split <;> rfl
@[simp] theorem grow_buf (s : State) : (grow s).buf = s.buf := by
  unfold grow; split <;> rfl
@[simp] theorem grow_answers (s : State) : (grow s).answers = s.answers := by
  unfold grow; split <;> rfl

/-! ### The flat cursor -/

theorem pos_eq (s : State) : s.pos = s.wi * 32 + s.bo := rfl

@[simp] theorem deliver_pos (r : Response) (s : State) : (deliver r s).pos = s.pos := rfl
@[simp] theorem respond_pos (v : DWord) (n : Nat) (s : State) : (respond v n s).pos = s.pos := rfl
@[simp] theorem raise_pos (st : Status) (s : State) : (raise st s).pos = s.pos := rfl
@[simp] theorem create_pos (n : Nat) (s : State) : (create n s).pos = 0 := rfl
@[simp] theorem hardReset_pos (s : State) : (hardReset s).pos = 0 := rfl
@[simp] theorem present_pos (c : Command) (rest : List HostEvent) (s : State) : (present c rest s).pos = s.pos := rfl
@[simp] theorem bufWrite_pos (ty : ScalarTy) (i : Nat) (v : DWord) (s : State) : (bufWrite ty i v s).pos = s.pos := rfl
@[simp] theorem grow_pos (s : State) : (grow s).pos = s.pos := by simp [State.pos]

/-- The cursor pair is the flat position's quotient and remainder by 32 (10_state.md R24). -/
theorem wi_eq_div {s : State} (h : s.bo < 32) : s.wi = s.pos / 32 := by simp only [State.pos]; omega

theorem bo_eq_mod {s : State} (h : s.bo < 32) : s.bo = s.pos % 32 := by simp only [State.pos]; omega

theorem setCursor_bo_lt (p : Nat) (s : State) : (setCursor p s).bo < 32 := by
  simp only [setCursor_bo]
  exact Nat.lt_of_le_of_lt Nat.and_le_right (by decide)

/-- `SETPOS` puts the flat cursor where it says (44_position_length.md R211). -/
@[simp] theorem setCursor_pos (p : Nat) (s : State) : (setCursor p s).pos = p := by
  simp only [State.pos, setCursor_wi, setCursor_bo, Nat.shiftRight_eq_div_pow]
  rw [show (31 : Nat) = 2 ^ 5 - 1 from rfl, Nat.and_two_pow_sub_one_eq_mod]
  omega

/-- `Advance(k)` moves the flat cursor by `k` (40_bitfield_primitives.md R111). -/
theorem advance_pos {k : Nat} {s : State} : (advance k s).pos = s.pos + k := by
  unfold advance State.pos
  split <;> simp only <;> omega

theorem advance_bo_lt {k : Nat} {s : State} (h : s.bo + k ≤ 32) : (advance k s).bo < 32 := by
  unfold advance
  split <;> simp only <;> omega

@[simp] theorem maxBits_eq (s : State) : s.maxBits = 32 * s.maxWords := rfl

end Sys2Proof.Machine
end

