-- ==== Sys2Proof/Laws/Bits.lean ====
section
/-! SUPPORT. The bit laws of the primitives: what one pass, `WriteBits` and `ReadBits` can do, said once
(spec/40_bitfield_primitives.md R113 to R120). -/

namespace Sys2Proof.Machine

/-! ### Words -/

/-- The mask table holds `n` ones at the bottom (10_state.md R29). -/
theorem getLsbD_mask (n j : Nat) : (mask n).getLsbD j = (decide (j < 32) && decide (j < n)) := by
  simp [mask, BitVec.getLsbD_ofNat, Nat.testBit_two_pow_sub_one]

theorem getLsbD_shiftBy (w : Word) (d : Int) (j : Nat) (hj : j < 32) :
    (shiftBy w d).getLsbD j = if d < 0 then w.getLsbD (j + (-d).toNat)
      else (decide (d.toNat ≤ j) && w.getLsbD (j - d.toNat)) := by
  unfold shiftBy
  split
  · rw [BitVec.getLsbD_ushiftRight, Nat.add_comm]
  · rw [BitVec.getLsbD_shiftLeft]
    by_cases h : j < d.toNat
    · rw [decide_eq_true h, decide_eq_false (show ¬ d.toNat ≤ j by omega)]
      simp
    · rw [decide_eq_false h, decide_eq_true (show d.toNat ≤ j by omega), decide_eq_true hj]
      simp

/-- The word one pass of `WriteBits` stores: the chunk holds the field's high bits, top bit at `freeBits - 1`, and every
other bit is the old one (R113, R115). Where the pass does not overwrite, the free region must hold zeros (10_state.md R28). -/
theorem getLsbD_mergeField {old value : Word} {b c fb : Nat} {ov : Bool} (hc : 0 < c) (hbc : b + c ≤ 32)
    (hfb : fb ≤ 32) (hz : ov = false → ∀ j, j < fb → old.getLsbD j = false) (j : Nat) (hj : j < 32) :
    (mergeField old value b c fb ov).getLsbD j =
      if fb - c ≤ j ∧ j < fb then value.getLsbD (j + b + c - fb) else old.getLsbD j := by
  have hfield : ∀ i, (value &&& (mask c <<< b)).getLsbD i =
      (value.getLsbD i && (decide (b ≤ i) && decide (i < b + c))) := by
    intro i
    by_cases hi : i < 32
    · rw [BitVec.getLsbD_and, BitVec.getLsbD_shiftLeft, getLsbD_mask]
      congr 1
      simp only [hi, decide_true, Bool.true_and]
      by_cases h1 : i < b
      · simp [h1, show ¬ b ≤ i by omega]
      · by_cases h2 : i < b + c
        · simp [h1, h2, show b ≤ i by omega, show i - b < 32 by omega, show i - b < c by omega]
        · simp [h2, show ¬ i - b < c by omega]
    · rw [BitVec.getLsbD_of_ge _ _ (by omega), BitVec.getLsbD_of_ge _ _ (by omega)]; simp
  have hplaced : (shiftBy (value &&& (mask c <<< b)) ((fb : Int) - (b + c))).getLsbD j =
      (decide (fb - c ≤ j ∧ j < fb) && value.getLsbD (j + b + c - fb)) := by
    rw [getLsbD_shiftBy _ _ _ hj]
    by_cases h3 : fb - c ≤ j ∧ j < fb
    · rw [decide_eq_true h3, Bool.true_and]
      split
      · rw [hfield, show j + (-((fb : Int) - (b + c))).toNat = j + b + c - fb by omega]
        simp [show b ≤ j + b + c - fb by omega, show j + b + c - fb < b + c by omega]
      · rw [hfield, show j - ((fb : Int) - (b + c)).toNat = j + b + c - fb by omega,
          decide_eq_true (show ((fb : Int) - (b + c)).toNat ≤ j by omega)]
        simp [show b ≤ j + b + c - fb by omega, show j + b + c - fb < b + c by omega]
    · rw [decide_eq_false h3, Bool.false_and]
      split
      · rw [hfield]
        by_cases h4 : j < fb
        · rw [decide_eq_false (show ¬ b ≤ j + (-((fb : Int) - (b + c))).toNat by omega)]; simp
        · rw [decide_eq_false (show ¬ j + (-((fb : Int) - (b + c))).toNat < b + c by omega)]; simp
      · rw [hfield]
        by_cases h5 : ((fb : Int) - (b + c)).toNat ≤ j
        · by_cases h4 : j < fb
          · rw [decide_eq_false (show ¬ b ≤ j - ((fb : Int) - (b + c)).toNat by omega)]; simp
          · rw [decide_eq_false (show ¬ j - ((fb : Int) - (b + c)).toNat < b + c by omega)]; simp
        · rw [decide_eq_false h5]; simp
  have hclr : (~~~ (shiftBy (mask c) ((fb : Int) - c))).getLsbD j = !decide (fb - c ≤ j ∧ j < fb) := by
    rw [BitVec.getLsbD_not, getLsbD_shiftBy _ _ _ hj, decide_eq_true hj, Bool.true_and]
    congr 1
    simp only [getLsbD_mask]
    by_cases h3 : fb - c ≤ j ∧ j < fb
    · rw [decide_eq_true h3]
      split
      · rw [decide_eq_true (show j + (-((fb : Int) - c)).toNat < 32 by omega),
          decide_eq_true (show j + (-((fb : Int) - c)).toNat < c by omega)]; rfl
      · rw [decide_eq_true (show ((fb : Int) - c).toNat ≤ j by omega),
          decide_eq_true (show j - ((fb : Int) - c).toNat < 32 by omega),
          decide_eq_true (show j - ((fb : Int) - c).toNat < c by omega)]; rfl
    · rw [decide_eq_false h3]
      split
      · rw [decide_eq_false (show ¬ j + (-((fb : Int) - c)).toNat < c by omega)]; simp
      · by_cases h5 : ((fb : Int) - c).toNat ≤ j
        · rw [decide_eq_false (show ¬ j - ((fb : Int) - c).toNat < c by omega)]; simp
        · rw [decide_eq_false h5]; simp
  unfold mergeField
  simp only []
  rw [BitVec.getLsbD_or, hplaced]
  by_cases h : fb - c ≤ j ∧ j < fb
  · rw [if_pos h]
    cases ov with
    | true =>
      simp only [if_true, BitVec.getLsbD_and, hclr]
      rw [decide_eq_true h]; simp
    | false => rw [decide_eq_true h]; simp [hz rfl j h.2]
  · rw [if_neg h]
    cases ov with
    | true =>
      simp only [if_true, BitVec.getLsbD_and, hclr]
      rw [decide_eq_false h]; simp
    | false => rw [decide_eq_false h]; simp

/-! ### Writing -/

/-- Writing nothing. -/
theorem Wrote.refl {s : State} (h : UnitInv s) (f : Nat → Bool) : Wrote s s 0 f where
  bits p := by rw [if_neg (by omega)]
  pos := rfl
  bo_lt := h.bo_lt
  len := by have := h.pos_le_len; omega
  wc := by have := h.pos_le_len; have := h.len_le_capacity; omega
  mem_wf := h.mem_wf
  isOpen := rfl
  maxWords := rfl
  pending := rfl
  buf := rfl
  answers := rfl

/-- Two writes, one after the other. -/
theorem Wrote.trans {s t u : State} {k l : Nat} {f g : Nat → Bool} (h₁ : Wrote s t k f) (h₂ : Wrote t u l g) :
    Wrote s u (k + l) (fun i => if i < k then f i else g (i - k)) where
  bits p := by
    rw [h₂.bits, h₁.bits, h₁.pos]
    by_cases hp : s.pos ≤ p ∧ p < s.pos + (k + l)
    · by_cases hk : p < s.pos + k
      · rw [if_neg (by omega), if_pos (by omega), if_pos hp, if_pos (by omega)]
      · rw [if_pos (by omega), if_pos hp, if_neg (by omega), show p - (s.pos + k) = p - s.pos - k by omega]
    · rw [if_neg (by omega), if_neg (by omega), if_neg hp]
  pos := by rw [h₂.pos, h₁.pos]; omega
  bo_lt := h₂.bo_lt
  len := by rw [h₂.len, h₁.len, h₁.pos]; omega
  wc := by rw [h₂.wc, h₁.wc, h₁.pos]; omega
  mem_wf := h₂.mem_wf
  isOpen := h₂.isOpen.trans h₁.isOpen
  maxWords := h₂.maxWords.trans h₁.maxWords
  pending := h₂.pending.trans h₁.pending
  buf := h₂.buf.trans h₁.buf
  answers := h₂.answers.trans h₁.answers

/-- Only the bits written matter. -/
theorem Wrote.congr {s t : State} {k : Nat} {f g : Nat → Bool} (h : Wrote s t k f) (hfg : ∀ i, i < k → f i = g i) :
    Wrote s t k g where
  __ := h
  bits p := by
    rw [h.bits]
    split
    · exact hfg _ (by omega)
    · rfl

/-- A write that stays within MAX_BITS keeps the invariants (10_state.md R27). -/
theorem Wrote.inv {s t : State} {k : Nat} {f : Nat → Bool} (h : Wrote s t k f) (hs : UnitInv s)
    (hroom : s.pos + k ≤ s.maxBits) : UnitInv t where
  maxWords_pos := h.maxWords ▸ hs.maxWords_pos
  maxWords_le := h.maxWords ▸ hs.maxWords_le
  wc_pos := by have := hs.wc_pos; rw [h.wc]; omega
  wc_le := by
    have := hs.wc_le
    rw [maxBits_eq] at hroom
    rw [h.wc, h.maxWords]
    omega
  len_le_capacity := by
    have := hs.len_le_capacity
    rw [h.len, h.wc]
    omega
  pos_le_len := by rw [h.len, h.pos]; omega
  bo_lt := h.bo_lt
  zero_beyond p hp := by
    rw [h.len] at hp
    rw [h.bits, if_neg (by omega)]
    exact hs.zero_beyond p (by omega)
  len_le_maxBits := by
    have h1 := hs.len_le_maxBits
    rw [maxBits_eq] at h1 hroom
    rw [maxBits_eq, h.len, h.maxWords]
    omega
  mem_wf := h.mem_wf

/-- One pass of the loop of `WriteBits` writes the chunk: the field's high bits (R113 to R116). -/
theorem writePass_wrote {s : State} (hs : UnitInv s) {value : Word} {b c : Nat} (hc : 0 < c) (hbc : b + c ≤ 32) :
    Wrote s (writePass value b c s) (chunk s c) (fun i => value.getLsbD (b + c - 1 - i)) := by
  have hbo := hs.bo_lt
  have hpos := pos_eq s
  have hlen := hs.pos_le_len
  have hcap := hs.len_le_capacity
  have hck : chunk s c = min (32 - s.bo) c := rfl
  have hgwf : Memory.wf (grow s).mem = true := by
    unfold grow
    split
    · exact wf_writeWord hs.mem_wf _ _
    · exact hs.mem_wf
  have hgbits : ∀ p, bitAt (grow s).mem p = bitAt s.mem p := by
    intro p
    unfold grow
    split
    · rename_i hge
      simp only
      rw [bitAt_writeWord hs.mem_wf]
      split
      · rw [hs.zero_beyond p (by omega)]; simp
      · rfl
    · rfl
  have hgwc : (grow s).wc = max s.wc (s.wi + 1) := by
    unfold grow
    split
    · show s.wi + 1 = _
      omega
    · omega
  unfold writePass
  refine ⟨fun p => ?_, ?_, ?_, ?_, ?_, ?_, ?_, ?_, ?_, ?_, ?_⟩
  · simp only [advance_mem, memWrite_mem, grow_wi, grow_bo]
    rw [bitAt_writeWord hgwf]
    by_cases hpw : p / 32 = s.wi
    · rw [if_pos hpw, getLsbD_mergeField hc hbc (by omega) ?_ _ (by omega)]
      · have hold : (readWord (grow s).mem s.wi).getLsbD (31 - p % 32) = bitAt s.mem p := by
          rw [← hgbits p]
          unfold bitAt
          rw [hpw]
        by_cases hp : s.pos ≤ p ∧ p < s.pos + chunk s c
        · rw [if_pos hp, if_pos (by omega)]
          congr 1
          omega
        · rw [if_neg hp, if_neg (by omega), hold]
      · intro hov j hj
        have hov' : ¬ (s.pos + 1 ≤ s.len) := of_decide_eq_false hov
        have e := hgbits (s.wi * 32 + (31 - j))
        rw [hs.zero_beyond _ (by omega)] at e
        unfold bitAt at e
        rwa [show (s.wi * 32 + (31 - j)) / 32 = s.wi by omega,
          show 31 - (s.wi * 32 + (31 - j)) % 32 = j by omega] at e
    · rw [if_neg hpw, if_neg (by omega), hgbits]
  · rw [advance_pos]
    simp [State.pos]
  · refine advance_bo_lt ?_
    simp only [memWrite_bo, grow_bo]
    omega
  · simp
  · simp only [advance_wc, memWrite_wc, hgwc]
    omega
  · simp only [advance_mem, memWrite_mem]
    exact wf_writeWord hgwf _ _
  all_goals simp

theorem writeLoop_wrote {value : Word} {b fuel c : Nat} {s : State} (hs : UnitInv s) (hf : c ≤ fuel) (hbc : b + c ≤ 32)
    (hroom : s.pos + c ≤ s.maxBits) :
    Wrote s (writeLoop value b fuel c s) c (fun i => value.getLsbD (b + c - 1 - i)) := by
  induction fuel generalizing c s with
  | zero =>
    obtain rfl : c = 0 := by omega
    exact Wrote.refl hs _
  | succ fuel ih =>
    unfold writeLoop
    split
    · rename_i h0
      subst h0
      exact Wrote.refl hs _
    · have hbo := hs.bo_lt
      have hck : chunk s c = min (32 - s.bo) c := rfl
      have h₁ := writePass_wrote hs (value := value) (b := b) (c := c) (by omega) hbc
      have hroom₁ : s.pos + chunk s c ≤ s.maxBits := by omega
      have h₂ := ih (c := c - chunk s c) (h₁.inv hs hroom₁) (by omega) (by omega)
        (by rw [maxBits_eq] at hroom ⊢; rw [h₁.pos, h₁.maxWords]; omega)
      have h := h₁.trans h₂
      rw [show chunk s c + (c - chunk s c) = c by omega] at h
      refine h.congr fun i hi => ?_
      split
      · rfl
      · congr 1
        omega

/-- `WriteBits` writes the field `value[b+c-1 : b]`, most significant bit first, and changes nothing else (R117). -/
theorem writeBits_wrote {value : Word} {b c : Nat} {s : State} (hs : UnitInv s) (hbc : b + c ≤ 32)
    (hroom : s.pos + c ≤ s.maxBits) :
    Wrote s (writeBits value b c s) c (fun i => value.getLsbD (b + c - 1 - i)) :=
  writeLoop_wrote hs (Nat.le_refl c) hbc hroom

/-! ### Reading -/

/-- The cursor moved within the stream keeps the invariants. -/
theorem UnitInv.setCursor {s : State} (hs : UnitInv s) {p : Nat} (hp : p ≤ s.len) : UnitInv (setCursor p s) where
  maxWords_pos := hs.maxWords_pos
  maxWords_le := hs.maxWords_le
  wc_pos := hs.wc_pos
  wc_le := hs.wc_le
  len_le_capacity := hs.len_le_capacity
  pos_le_len := by rw [setCursor_pos]; exact hp
  bo_lt := setCursor_bo_lt p s
  zero_beyond := hs.zero_beyond
  len_le_maxBits := hs.len_le_maxBits
  mem_wf := hs.mem_wf

/-- States that differ in nothing but the way the cursor is written are the same. -/
theorem eq_setCursor {s t : State} {p : Nat} (hpos : t.pos = p) (hbo : t.bo < 32)
    (hrest : t = { s with wi := t.wi, bo := t.bo }) : t = setCursor p s := by
  have h1 : p >>> 5 = t.wi := by
    rw [Nat.shiftRight_eq_div_pow, ← hpos]
    simp only [State.pos]
    omega
  have h2 : p &&& 31 = t.bo := by
    rw [show (31 : Nat) = 2 ^ 5 - 1 from rfl, Nat.and_two_pow_sub_one_eq_mod, ← hpos]
    simp only [State.pos]
    omega
  rw [hrest]
  simp only [Machine.setCursor, h1, h2]

theorem setCursor_self {s : State} (h : s.bo < 32) : setCursor s.pos s = s :=
  (eq_setCursor rfl h rfl).symm

/-- `Advance(k)` within a word sets the cursor `k` bits on (R111). -/
theorem advance_eq_setCursor {s : State} {k : Nat} (h : s.bo + k ≤ 32) : advance k s = setCursor (s.pos + k) s := by
  refine eq_setCursor advance_pos (advance_bo_lt h) ?_
  unfold advance
  split <;> rfl

theorem setCursor_setCursor (p q : Nat) (s : State) : setCursor p (setCursor q s) = setCursor p s := rfl

/-- The loop of `ReadBits` never stops within the stream, and ORs the bits read into the value (R118). -/
theorem readLoop_spec {b fuel rem : Nat} {value : Word} {s : State} (hs : UnitInv s) (hf : rem ≤ fuel)
    (hb : b + rem ≤ 32) (hl : s.pos + rem ≤ s.len) :
    ∃ v, readLoop b fuel rem value s = .ok (v, setCursor (s.pos + rem) s) ∧
      ∀ j, v.getLsbD j =
        (value.getLsbD j || (decide (b ≤ j ∧ j < b + rem) && bitAt s.mem (s.pos + (b + rem - 1 - j)))) := by
  induction fuel generalizing rem value s with
  | zero =>
    obtain rfl : rem = 0 := by omega
    refine ⟨value, ?_, fun j => ?_⟩
    · rw [Nat.add_zero, setCursor_self hs.bo_lt]; rfl
    · rw [decide_eq_false (by omega)]; simp
  | succ fuel ih =>
    unfold readLoop
    by_cases h0 : rem = 0
    · subst h0
      refine ⟨value, ?_, fun j => ?_⟩
      · rw [if_pos rfl, Nat.add_zero, setCursor_self hs.bo_lt]
      · rw [decide_eq_false (by omega)]; simp
    · rw [if_neg h0]
      have hbo := hs.bo_lt
      have hpos := pos_eq s
      have hcap := hs.len_le_capacity
      have hck : chunk s rem = min (32 - s.bo) rem := rfl
      have hw : memRead s s.wi = some (readWord s.mem s.wi) := if_pos (by omega)
      rw [hw]
      simp only []
      rw [advance_eq_setCursor (by omega)]
      obtain ⟨v, hv, hbits⟩ := ih (rem := rem - chunk s rem)
        (value := value ||| (((readWord s.mem s.wi >>> (32 - s.bo - chunk s rem)) &&& mask (chunk s rem)) <<<
          (b + (rem - chunk s rem))))
        (s := setCursor (s.pos + chunk s rem) s) (hs.setCursor (by omega)) (by omega) (by omega)
        (by rw [setCursor_pos, setCursor_len]; omega)
      refine ⟨v, ?_, fun j => ?_⟩
      · rw [hv, setCursor_pos, setCursor_setCursor, show s.pos + chunk s rem + (rem - chunk s rem) = s.pos + rem by omega]
      · rw [hbits, setCursor_pos, setCursor_mem, BitVec.getLsbD_or, Bool.or_assoc]
        congr 1
        have hnew : (((readWord s.mem s.wi >>> (32 - s.bo - chunk s rem)) &&& mask (chunk s rem)) <<<
            (b + (rem - chunk s rem))).getLsbD j =
            (decide (b + (rem - chunk s rem) ≤ j ∧ j < b + rem) && bitAt s.mem (s.pos + (b + rem - 1 - j))) := by
          rw [BitVec.getLsbD_shiftLeft, BitVec.getLsbD_and, BitVec.getLsbD_ushiftRight, getLsbD_mask]
          by_cases h : b + (rem - chunk s rem) ≤ j ∧ j < b + rem
          · rw [decide_eq_true h, decide_eq_true (show j < 32 by omega),
              decide_eq_false (show ¬ j < b + (rem - chunk s rem) by omega),
              decide_eq_true (show j - (b + (rem - chunk s rem)) < 32 by omega),
              decide_eq_true (show j - (b + (rem - chunk s rem)) < chunk s rem by omega)]
            unfold bitAt
            rw [show (s.pos + (b + rem - 1 - j)) / 32 = s.wi by omega,
              show 31 - (s.pos + (b + rem - 1 - j)) % 32 =
                32 - s.bo - chunk s rem + (j - (b + (rem - chunk s rem))) by omega]
            simp
          · rw [decide_eq_false h]
            by_cases h2 : j < b + (rem - chunk s rem)
            · rw [decide_eq_true h2]; simp
            · rw [decide_eq_false (show ¬ j - (b + (rem - chunk s rem)) < chunk s rem by omega)]; simp
        rw [hnew]
        by_cases h : b ≤ j ∧ j < b + rem
        · rw [decide_eq_true h]
          by_cases h2 : b + (rem - chunk s rem) ≤ j
          · rw [decide_eq_true (show b + (rem - chunk s rem) ≤ j ∧ j < b + rem by omega),
              decide_eq_false (show ¬ (b ≤ j ∧ j < b + (rem - chunk s rem)) by omega)]
            simp
          · rw [decide_eq_false (show ¬ (b + (rem - chunk s rem) ≤ j ∧ j < b + rem) by omega),
              decide_eq_true (show b ≤ j ∧ j < b + (rem - chunk s rem) by omega),
              show s.pos + chunk s rem + (b + (rem - chunk s rem) - 1 - j) = s.pos + (b + rem - 1 - j) by omega]
            simp
        · rw [decide_eq_false h, decide_eq_false (show ¬ (b + (rem - chunk s rem) ≤ j ∧ j < b + rem) by omega),
            decide_eq_false (show ¬ (b ≤ j ∧ j < b + (rem - chunk s rem)) by omega)]
          simp

theorem available_le (s : State) (c : Nat) : available s c ≤ c := Nat.min_le_left _ _

theorem pos_add_available_le {s : State} (hs : UnitInv s) (c : Nat) : s.pos + available s c ≤ s.len := by
  have := hs.pos_le_len
  unfold available
  omega

/-- `ReadBits` reads the `min(count, LEN - pos)` bits at the cursor into value bits `[b, b + n)`, first bit highest, zeros
elsewhere, and moves nothing but the cursor (R118 to R120). -/
theorem readBits_spec {b c : Nat} {s : State} (hs : UnitInv s) (hbc : b + c ≤ 32) :
    ∃ v, readBits b c s = .ok ⟨v, available s c, setCursor (s.pos + available s c) s⟩ ∧
      ∀ j, v.getLsbD j =
        (decide (b ≤ j ∧ j < b + available s c) && bitAt s.mem (s.pos + (b + available s c - 1 - j))) := by
  have hle := available_le s c
  obtain ⟨v, hv, hbits⟩ := readLoop_spec (b := b) (fuel := available s c) (rem := available s c) (value := 0) hs
    (Nat.le_refl _) (by omega) (pos_add_available_le hs c)
  refine ⟨v, ?_, fun j => ?_⟩
  · unfold readBits
    rw [hv]
  · rw [hbits]; simp

end Sys2Proof.Machine
end

