-- ==== Sys2Proof/Laws/Fields.lean ====
section
/-! SUPPORT. What the field operations of the scalar commands can do, said once: the 64-bit split, writes and reads of a
field of any type (spec/40_bitfield_primitives.md R121 to R123, 41_scalar_write.md R140, 42_scalar_read.md R160). -/

namespace Sys2Proof.Machine

/-! ### Widths and the split -/

theorem width_pos (ty : ScalarTy) : 0 < width ty := by cases ty <;> decide

theorem width_le_64 (ty : ScalarTy) : width ty ≤ 64 := by cases ty <;> decide

/-- `Split64` cuts a field at bit 32 (R121). -/
theorem split64_spec {b c : Nat} (h : b + c ≤ 64) :
    (split64 b c).cnt1 = min (b + c) 32 - min b 32 ∧ (split64 b c).cnt1 + (split64 b c).cnt2 = c ∧
    (split64 b c).idx1 + (split64 b c).cnt1 ≤ 32 ∧ (split64 b c).idx2 + (split64 b c).cnt2 ≤ 32 ∧
    (0 < (split64 b c).cnt1 → (split64 b c).idx1 = b) ∧
    (0 < (split64 b c).cnt2 → 32 + (split64 b c).idx2 = max b 32 ∧
      32 + (split64 b c).idx2 + (split64 b c).cnt2 = b + c) := by
  unfold split64
  simp only []
  split <;> split <;> omega

theorem fieldBitIndex_lt {b c i : Nat} (hi : i < c) : fieldBitIndex b c i < b + c := by
  unfold fieldBitIndex
  simp only []
  split <;> omega

theorem fieldBitIndex_ge {b c i : Nat} (hi : i < c) : b ≤ fieldBitIndex b c i := by
  unfold fieldBitIndex
  simp only []
  split <;> omega

/-- Within the low half a field's bits run from its top bit down. -/
theorem fieldBitIndex_low {b c i : Nat} (h : b + c ≤ 32) (hi : i < c) : fieldBitIndex b c i = b + c - 1 - i := by
  unfold fieldBitIndex
  simp only []
  split <;> omega

/-- Different stream bits of a field are different bits of the value. -/
theorem fieldBitIndex_inj {b c i j : Nat} (hi : i < c) (hj : j < c) (h : fieldBitIndex b c i = fieldBitIndex b c j) :
    i = j := by
  unfold fieldBitIndex at h
  simp only [] at h
  split at h <;> split at h <;> omega

/-- Every bit of the field is some stream bit of it. -/
theorem fieldBitIndex_surj {b c j : Nat} (hb : b ≤ j) (hc : j < b + c) : ∃ i, i < c ∧ fieldBitIndex b c i = j := by
  unfold fieldBitIndex
  simp only []
  by_cases h : j < 32
  · exact ⟨min (b + c) 32 - 1 - j, by omega, by rw [if_pos (by omega)]; omega⟩
  · exact ⟨b + c - 1 - j + (min (b + c) 32 - min b 32), by omega, by rw [if_neg (by omega)]; omega⟩

/-! ### Writing a field -/

theorem writeHalf_wrote {value : Word} {b c : Nat} {s : State} (hs : UnitInv s) (hbc : b + c ≤ 32)
    (hroom : s.pos + c ≤ s.maxBits) :
    Wrote s (writeHalf value b c s) c (fun i => value.getLsbD (b + c - 1 - i)) := by
  unfold writeHalf
  split
  · exact writeBits_wrote hs hbc hroom
  · obtain rfl : c = 0 := by omega
    exact Wrote.refl hs _

/-- `Write64` writes the low-half part of the field and then the high-half part (R122). -/
theorem write64_wrote {value : DWord} {b c : Nat} {s : State} (hs : UnitInv s) (hbc : b + c ≤ 64)
    (hroom : s.pos + c ≤ s.maxBits) :
    Wrote s (write64 value b c s) c (fun i => value.getLsbD (fieldBitIndex b c i)) := by
  obtain ⟨hc1, hsum, hl, hh, hi1, hi2⟩ := split64_spec hbc
  have h₁ := writeHalf_wrote (value := value.extractLsb' 0 32) hs hl (by omega)
  have hroom₂ : (writeHalf (value.extractLsb' 0 32) (split64 b c).idx1 (split64 b c).cnt1 s).pos + (split64 b c).cnt2 ≤
      (writeHalf (value.extractLsb' 0 32) (split64 b c).idx1 (split64 b c).cnt1 s).maxBits := by
    rw [maxBits_eq] at hroom ⊢
    rw [h₁.pos, h₁.maxWords]
    omega
  have h₂ := writeHalf_wrote (value := value.extractLsb' 32 32) (h₁.inv hs (by omega)) hh hroom₂
  have h := h₁.trans h₂
  rw [hsum] at h
  refine Wrote.congr (t := write64 value b c s) h fun i hi => ?_
  simp only [BitVec.getLsbD_extractLsb', fieldBitIndex, ← hc1]
  split
  · have := hi1 (by omega)
    rw [decide_eq_true (by omega), Bool.true_and]
    congr 1
    omega
  · have := hi2 (by omega)
    rw [decide_eq_true (by omega), Bool.true_and]
    congr 1
    omega

/-- A field write stores the field's bits in stream order at the cursor and changes nothing else: the bit law of R117 for
every type (R140). -/
theorem writeField_wrote {ty : ScalarTy} {value : DWord} {b c : Nat} {s : State} (hs : UnitInv s) (hbc : b + c ≤ width ty)
    (hroom : s.pos + c ≤ s.maxBits) :
    Wrote s (writeField ty value b c s) c (fun i => value.getLsbD (fieldBitIndex b c i)) := by
  have := width_le_64 ty
  unfold writeField
  split
  · refine (writeBits_wrote hs (by omega) hroom).congr fun i hi => ?_
    rw [fieldBitIndex_low (by omega) hi, BitVec.getLsbD_extractLsb', decide_eq_true (by omega)]
    simp
  · exact write64_wrote hs (by omega) hroom

/-! ### Reading a field -/

theorem readHalf_spec {b c : Nat} {s : State} (hs : UnitInv s) (hbc : b + c ≤ 32) :
    ∃ v, readHalf b c s = .ok ⟨v, available s c, setCursor (s.pos + available s c) s⟩ ∧
      ∀ j, v.getLsbD j =
        (decide (b ≤ j ∧ j < b + available s c) && bitAt s.mem (s.pos + (b + available s c - 1 - j))) := by
  unfold readHalf
  split
  · exact readBits_spec hs hbc
  · obtain rfl : c = 0 := by omega
    have h0 : available s 0 = 0 := Nat.zero_min _
    refine ⟨0, ?_, fun j => ?_⟩
    · rw [h0, Nat.add_zero, setCursor_self hs.bo_lt]
    · rw [h0, decide_eq_false (by omega)]; simp

/-- What `ReadAs` fixes: the value read is unique. -/
theorem ReadAs.unique {m : List Host.Cell} {p b n : Nat} {v v' : DWord} (h : ReadAs m p b n v) (h' : ReadAs m p b n v') :
    v = v' := by
  apply BitVec.eq_of_getLsbD_eq
  intro j _
  by_cases hj : b ≤ j ∧ j < b + n
  · obtain ⟨i, hi, rfl⟩ := fieldBitIndex_surj hj.1 hj.2
    rw [h.bits i hi, h'.bits i hi]
  · rw [h.clean j (by omega), h'.clean j (by omega)]

/-- A field read returns the available bits of the field at its place and zeros elsewhere, and moves nothing but the
cursor; it never stops (R119, R120, R160). -/
theorem readField_spec {ty : ScalarTy} {b c : Nat} {s : State} (hs : UnitInv s) (hbc : b + c ≤ width ty) :
    ∃ v, readField ty b c s = .ok ⟨v, available s c, setCursor (s.pos + available s c) s⟩ ∧
      ReadAs s.mem s.pos b (available s c) v := by
  have hw := width_le_64 ty
  have hav := available_le s c
  unfold readField
  split
  · obtain ⟨v, hv, hbits⟩ := readBits_spec (b := b) (c := c) hs (by omega)
    rw [hv]
    refine ⟨v.setWidth 64, rfl, fun i hi => ?_, fun j hj => ?_⟩
    · rw [fieldBitIndex_low (by omega) hi, BitVec.getLsbD_setWidth, hbits, decide_eq_true (by omega),
        decide_eq_true (by omega), show b + available s c - 1 - (b + available s c - 1 - i) = i by omega]
      simp
    · rw [BitVec.getLsbD_setWidth, hbits, decide_eq_false (p := b ≤ j ∧ j < b + available s c) (by omega)]
      simp
  · obtain ⟨hc1, hsum, hl, hh, hi1, hi2⟩ := split64_spec (b := b) (c := c) (by omega)
    obtain ⟨v₁, hv₁, hb₁⟩ := readHalf_spec hs hl
    have hpl := pos_add_available_le hs (split64 b c).cnt1
    obtain ⟨v₂, hv₂, hb₂⟩ := readHalf_spec
      (s := setCursor (s.pos + available s (split64 b c).cnt1) s) (hs.setCursor hpl) hh
    simp only [setCursor_pos, setCursor_mem, setCursor_setCursor] at hv₂ hb₂
    have ha₁ : available s (split64 b c).cnt1 = min (split64 b c).cnt1 (s.len - s.pos) := rfl
    have ha₂ : available (setCursor (s.pos + available s (split64 b c).cnt1) s) (split64 b c).cnt2 =
        min (split64 b c).cnt2 (s.len - (s.pos + available s (split64 b c).cnt1)) := by
      unfold available
      rw [setCursor_pos]
      rfl
    have ha : available s c = min c (s.len - s.pos) := rfl
    have htot : available s (split64 b c).cnt1 +
        available (setCursor (s.pos + available s (split64 b c).cnt1) s) (split64 b c).cnt2 = available s c := by omega
    have hval : ∀ j, ((v₂.setWidth 64 <<< 32) ||| v₁.setWidth 64).getLsbD j =
        if j < 32 then v₁.getLsbD j else v₂.getLsbD (j - 32) := by
      intro j
      rw [BitVec.getLsbD_or, BitVec.getLsbD_shiftLeft, BitVec.getLsbD_setWidth, BitVec.getLsbD_setWidth]
      split
      · rename_i hj
        rw [decide_eq_true hj, decide_eq_true (show j < 64 by omega)]; simp
      · rename_i hj
        rw [decide_eq_false hj, BitVec.getLsbD_of_ge v₁ j (by omega)]
        by_cases h64 : j < 64
        · rw [decide_eq_true h64, decide_eq_true (show j - 32 < 64 by omega)]; simp
        · rw [decide_eq_false h64, BitVec.getLsbD_of_ge v₂ (j - 32) (by omega)]; simp
    generalize hn₁ : available s (split64 b c).cnt1 = n₁ at *
    generalize hn₂ : available (setCursor (s.pos + n₁) s) (split64 b c).cnt2 = n₂ at *
    refine ⟨(v₂.setWidth 64 <<< 32) ||| v₁.setWidth 64, ?_, ⟨fun i hi => ?_, fun j hj => ?_⟩⟩
    · unfold read64
      simp only [Config.halfOrder, hv₁, hv₂, joinHalves]
      rw [show s.pos + n₁ + n₂ = s.pos + available s c by omega, htot]
    · rw [hval]
      unfold fieldBitIndex
      simp only []
      by_cases hlow : i < min (b + available s c) 32 - min b 32
      · have := hi1 (by omega)
        rw [if_pos hlow, if_pos (by omega), hb₁, decide_eq_true (by omega), Bool.true_and]
        congr 1
        omega
      · have := hi2 (by omega)
        rw [if_neg hlow, if_neg (by omega), hb₂, decide_eq_true (by omega), Bool.true_and]
        congr 1
        omega
    · rw [hval]
      split
      · rw [hb₁, decide_eq_false]; · simp
        by_cases h1 : 0 < (split64 b c).cnt1
        · have := hi1 h1; omega
        · omega
      · rw [hb₂, decide_eq_false]; · simp
        by_cases h2 : 0 < (split64 b c).cnt2
        · have := hi2 h2; omega
        · omega

end Sys2Proof.Machine
end

