-- ==== Sys2Proof/Laws/Arrays.lean ====
section
/-! SUPPORT. The operand buffer and the element loops of the array commands, said once (spec/43_array.md R180, R193, R205). -/

namespace Sys2Proof.Machine

/-! ### The operand buffer -/

/-- An element read after an element write. -/
theorem bufGet_bufSet (l : List DWord) (i : Nat) (v : DWord) (j : Nat) :
    bufGet (bufSet l i v) j = if j = i then v else bufGet l j := by
  induction l generalizing i j with
  | nil =>
    induction i generalizing j with
    | zero => cases j <;> simp [bufSet, bufGet]
    | succ i ih =>
      cases j with
      | zero => simp [bufSet, bufGet]
      | succ j => simp [bufSet, bufGet, ih]
  | cons x t ih =>
    cases i with
    | zero => cases j <;> simp [bufSet, bufGet]
    | succ i => cases j <;> simp [bufSet, bufGet, ih]

/-- An element is the low `width(ty)` bits of what stands in the buffer (R205). -/
theorem getLsbD_elementOf (ty : ScalarTy) (v : DWord) (j : Nat) :
    (elementOf ty v).getLsbD j = (decide (j < width ty) && v.getLsbD j) := by
  have := width_le_64 ty
  unfold elementOf
  rw [BitVec.getLsbD_setWidth, BitVec.getLsbD_setWidth]
  by_cases h : j < width ty
  · rw [decide_eq_true h, decide_eq_true (show j < 64 by omega)]; simp
  · rw [decide_eq_false h]; simp

/-- A value with no bit at or above `width(ty)` is stored as it is. -/
theorem elementOf_eq_self {ty : ScalarTy} {v : DWord} (h : ∀ j, width ty ≤ j → v.getLsbD j = false) :
    elementOf ty v = v := by
  apply BitVec.eq_of_getLsbD_eq
  intro j _
  rw [getLsbD_elementOf]
  by_cases hj : j < width ty
  · simp [hj]
  · rw [decide_eq_false hj, h j (by omega)]; rfl

/-- The operand buffer is no part of the invariants. -/
theorem UnitInv.bufWrite {s : State} (h : UnitInv s) (ty : ScalarTy) (i : Nat) (v : DWord) : UnitInv (bufWrite ty i v s) where
  maxWords_pos := h.maxWords_pos
  maxWords_le := h.maxWords_le
  wc_pos := h.wc_pos
  wc_le := h.wc_le
  len_le_capacity := h.len_le_capacity
  pos_le_len := h.pos_le_len
  bo_lt := h.bo_lt
  zero_beyond := h.zero_beyond
  len_le_maxBits := h.len_le_maxBits
  mem_wf := h.mem_wf

/-! ### The loop of WRA -/

/-- The elements go to the stream one after another, each whole, in stream order (R180). -/
theorem writeElems_wrote {ty : ScalarTy} {k i : Nat} {s : State} (hs : UnitInv s)
    (hroom : s.pos + k * width ty ≤ s.maxBits) :
    Wrote s (writeElems ty k i s) (k * width ty)
      (fun x => (bufGet s.buf (i + x / width ty)).getLsbD (fieldBitIndex 0 (width ty) (x % width ty))) := by
  induction k generalizing i s with
  | zero => rw [Nat.zero_mul]; exact Wrote.refl hs _
  | succ k ih =>
    have hw := width_pos ty
    rw [Nat.succ_mul] at hroom ⊢
    have h₁ := writeField_wrote (ty := ty) (value := bufRead ty s i) (b := 0) (c := width ty) hs (by omega) (by omega)
    have h₂ := ih (i := i + 1) (s := writeField ty (bufRead ty s i) 0 (width ty) s) (h₁.inv hs (by omega)) (by
      rw [maxBits_eq] at hroom ⊢
      rw [h₁.pos, h₁.maxWords]
      omega)
    have h := h₁.trans h₂
    rw [Nat.add_comm (width ty)] at h
    refine Wrote.congr (t := writeElems ty (k + 1) i s) h fun x hx => ?_
    split
    · rename_i hlt
      rw [Nat.div_eq_of_lt hlt, Nat.mod_eq_of_lt hlt, Nat.add_zero, bufRead, getLsbD_elementOf,
        decide_eq_true (by simpa using fieldBitIndex_lt (b := 0) hlt), Bool.true_and]
    · rename_i hge
      rw [h₁.buf, Nat.mod_eq_sub_mod (Nat.le_of_not_lt hge), Nat.div_eq_sub_div hw (Nat.le_of_not_lt hge),
        show i + 1 + (x - width ty) / width ty = i + ((x - width ty) / width ty + 1) by omega]

/-! ### The loop of RDA -/

/-- How many elements `n` bits store: `ceil(n / w)` (R193). -/
theorem ceil_sub {n w : Nat} (hw : 0 < w) (h : w ≤ n) : (n + w - 1) / w = (n - w + w - 1) / w + 1 := by
  rw [show n + w - 1 = n - w + w - 1 + w by omega, Nat.add_div_right _ hw]

/-- The loop stores, element by element, the bits that are available, and stops at the end of the stream; it never stops
the machine (R193). -/
theorem readElems_spec {ty : ScalarTy} {k i total : Nat} {s : State} (hs : UnitInv s) :
    ∃ buf', readElems ty k i total s =
        .ok (total + available s (k * width ty),
          { setCursor (s.pos + available s (k * width ty)) s with buf := buf' }) ∧
      ∀ e, if i ≤ e ∧ e < i + (available s (k * width ty) + width ty - 1) / width ty
        then ReadAs s.mem (s.pos + (e - i) * width ty) 0
          (min (width ty) (s.len - (s.pos + (e - i) * width ty))) (bufGet buf' e)
        else bufGet buf' e = bufGet s.buf e := by
  have hw := width_pos ty
  have hlen := hs.pos_le_len
  induction k generalizing i total s with
  | zero =>
    have h0 : available s (0 * width ty) = 0 := by unfold available; omega
    rw [h0]
    refine ⟨s.buf, ?_, fun e => ?_⟩
    · rw [Nat.add_zero, Nat.add_zero, setCursor_self hs.bo_lt]; rfl
    · rw [Nat.div_eq_of_lt (by omega), if_neg (by omega)]
  | succ k ih =>
    obtain ⟨v, hv, hread⟩ := readField_spec (ty := ty) (b := 0) (c := width ty) hs (by omega)
    have ha : available s (width ty) = min (width ty) (s.len - s.pos) := rfl
    have hak : available s (k * width ty + width ty) = min (k * width ty + width ty) (s.len - s.pos) := rfl
    rw [Nat.succ_mul]
    unfold readElems
    rw [hv]
    simp only []
    by_cases hn : available s (width ty) = 0
    · have hnk : available s (k * width ty + width ty) = 0 := by omega
      rw [if_pos hn, hn, hnk]
      refine ⟨s.buf, rfl, fun e => ?_⟩
      rw [Nat.div_eq_of_lt (by omega), if_neg (by omega)]
    · rw [if_neg hn]
      have hs₁ := (hs.setCursor (pos_add_available_le hs (width ty))).bufWrite ty i v
      obtain ⟨buf', hb, hel⟩ := ih (i := i + 1) (total := total + available s (width ty)) hs₁ hs₁.pos_le_len
      have hpos₁ : (bufWrite ty i v (setCursor (s.pos + available s (width ty)) s)).pos =
          s.pos + available s (width ty) := by rw [bufWrite_pos, setCursor_pos]
      have hak₁ : available (bufWrite ty i v (setCursor (s.pos + available s (width ty)) s)) (k * width ty) =
          min (k * width ty) (s.len - (s.pos + available s (width ty))) := by
        show min (k * width ty)
          (s.len - (bufWrite ty i v (setCursor (s.pos + available s (width ty)) s)).pos) = _
        rw [hpos₁]
      have hsum : available s (width ty) +
          available (bufWrite ty i v (setCursor (s.pos + available s (width ty)) s)) (k * width ty) =
          available s (k * width ty + width ty) := by omega
      have hsame : elementOf ty v = v := elementOf_eq_self fun j hj => hread.clean j (by omega)
      generalize hn₁ : available (bufWrite ty i v (setCursor (s.pos + available s (width ty)) s)) (k * width ty) = n₁ at *
      refine ⟨buf', ?_, fun e => ?_⟩
      · rw [hb, hpos₁, Nat.add_assoc, Nat.add_assoc, hsum]
        rfl
      · have he := hel e
        rw [hpos₁] at he
        simp only [bufWrite_mem, setCursor_mem, bufWrite_len, setCursor_len, bufWrite_buf, setCursor_buf,
          bufGet_bufSet, hsame] at he
        by_cases hfull : width ty ≤ s.len - s.pos
        · rw [show available s (width ty) = width ty by omega] at he hsum hn
          have hcs := ceil_sub (n := available s (k * width ty + width ty)) hw (by omega)
          rw [show available s (k * width ty + width ty) - width ty = n₁ by omega] at hcs
          rw [hcs]
          generalize (n₁ + width ty - 1) / width ty = q at *
          by_cases hei : e = i
          · subst hei
            rw [if_neg (by omega), if_pos rfl] at he
            rw [if_pos (by omega), he, Nat.sub_self, Nat.zero_mul, Nat.add_zero]
            rw [ha] at hread
            exact hread
          · by_cases hin : i + 1 ≤ e ∧ e < i + 1 + q
            · rw [if_pos hin] at he
              rw [if_pos (by omega)]
              have hmul : (e - i) * width ty = width ty + (e - (i + 1)) * width ty := by
                rw [show e - i = e - (i + 1) + 1 by omega, Nat.succ_mul, Nat.add_comm]
              rw [hmul, ← Nat.add_assoc]
              exact he
            · rw [if_neg hin, if_neg hei] at he
              rw [if_neg (by omega)]
              exact he
        · have hn₀ : n₁ = 0 := by omega
          have hone : (available s (k * width ty + width ty) + width ty - 1) / width ty = 1 :=
            Nat.div_eq_of_lt_le (by omega) (by omega)
          rw [hn₀, Nat.div_eq_of_lt (show 0 + width ty - 1 < width ty by omega), if_neg (by omega)] at he
          rw [hone]
          by_cases hei : e = i
          · subst hei
            rw [if_pos rfl] at he
            rw [if_pos (by omega), he, Nat.sub_self, Nat.zero_mul, Nat.add_zero]
            rw [ha] at hread
            exact hread
          · rw [if_neg hei] at he
            rw [if_neg (by omega)]
            exact he

end Sys2Proof.Machine
end

