-- ==== Sys2Proof/Laws/Decode.lean ====
section
/-! SUPPORT. What the decoder can answer, said once; the encoder and well-formedness on the four typed families; signed and
unsigned fields read back. -/

namespace Sys2Proof

/-! ### Fields -/

/-- A signed 32-bit field reads back. -/
theorem toInt_ofInt_of_fitsI32 {v : Int} (h : fitsI32 v = true) : (BitVec.ofInt 32 v).toInt = v := by
  simp only [fitsI32, decide_eq_true_eq] at h
  rw [BitVec.toInt_ofInt, Int.bmod_eq_of_le] <;> omega

/-- A signed 64-bit field reads back. -/
theorem toInt_ofInt_of_fitsI64 {v : Int} (h : fitsI64 v = true) : (BitVec.ofInt 64 v).toInt = v := by
  simp only [fitsI64, decide_eq_true_eq] at h
  rw [BitVec.toInt_ofInt, Int.bmod_eq_of_le] <;> omega

/-- An unsigned 32-bit field reads back. -/
theorem toNat_ofNat_of_fitsU32 {v : Nat} (h : fitsU32 v = true) : (BitVec.ofNat 32 v).toNat = v := by
  simp only [fitsU32, decide_eq_true_eq] at h
  rw [BitVec.toNat_ofNat, Nat.mod_eq_of_lt]
  omega

/-- What a signed 32-bit field reads fits it. -/
theorem fitsI32_toInt (w : Word) : fitsI32 w.toInt = true := by
  have := BitVec.le_toInt w
  have := BitVec.toInt_lt (x := w)
  simp only [fitsI32, decide_eq_true_eq]
  constructor <;> omega

/-- What a signed 64-bit field reads fits it. -/
theorem fitsI64_toInt (w : DWord) : fitsI64 w.toInt = true := by
  have := BitVec.le_toInt w
  have := BitVec.toInt_lt (x := w)
  simp only [fitsI64, decide_eq_true_eq]
  constructor <;> omega

/-! ### The typed families -/

theorem encode_wr (ty : ScalarTy) (a : DWord) (f : Form) : encode (.wr ty a f) = scalarFrame 0x10 (codeOfTy ty) a f := by
  cases ty <;> rfl

theorem encode_rd (ty : ScalarTy) (f : Form) : encode (.rd ty f) = scalarFrame 0x11 (codeOfTy ty) 0 f := by cases ty <;> rfl

theorem encode_wra (ty : ScalarTy) (b : BufArg) (off cnt : Int) :
    encode (.wra ty b off cnt) = arrayFrame 0x12 (codeOfTy ty) b off cnt := by
  cases ty <;> rfl

theorem encode_rda (ty : ScalarTy) (b : BufArg) (off cnt : Int) :
    encode (.rda ty b off cnt) = arrayFrame 0x13 (codeOfTy ty) b off cnt := by
  cases ty <;> rfl

theorem wellFormed_wr (ty : ScalarTy) (a : DWord) (f : Form) : (Instr.wr ty a f).wellFormed = f.wellFormed := by
  cases ty <;> rfl

theorem wellFormed_rd (ty : ScalarTy) (f : Form) : (Instr.rd ty f).wellFormed = f.wellFormed := by cases ty <;> rfl

theorem wellFormed_wra (ty : ScalarTy) (b : BufArg) (off cnt : Int) :
    (Instr.wra ty b off cnt).wellFormed = arrayWellFormed b off cnt := by
  cases ty <;> rfl

theorem wellFormed_rda (ty : ScalarTy) (b : BufArg) (off cnt : Int) :
    (Instr.rda ty b off cnt).wellFormed = arrayWellFormed b off cnt := by
  cases ty <;> rfl

theorem tyOfCode_codeOfTy (ty : ScalarTy) : tyOfCode (codeOfTy ty) = some ty := by cases ty <;> rfl

theorem codeOfTy_of_tyOfCode {n : Nat} {ty : ScalarTy} (h : tyOfCode n = some ty) : n = codeOfTy ty := by
  unfold tyOfCode at h
  split at h <;> first | (cases h; rfl) | cases h

/-! ### The decoder -/

/-- Everything the decoder can answer, with the fields of the control word that made it answer so (R81, R88). -/
theorem decode_cases {P : Except Reserved Instr → Prop} (f : Frame) (h_error : ∀ e, P (.error e))
    (h_wr : ∀ ty, cwOp f.cw = 0x10 → cwTy f.cw = codeOfTy ty → cwHigh f.cw = 0 → cwBuf f.cw = false →
      P (.ok (.wr ty f.a (formOf f))))
    (h_rd : ∀ ty, cwOp f.cw = 0x11 → cwTy f.cw = codeOfTy ty → cwHigh f.cw = 0 → cwBuf f.cw = false →
      P (.ok (.rd ty (formOf f))))
    (h_wra : ∀ ty, cwOp f.cw = 0x12 → cwTy f.cw = codeOfTy ty → cwHigh f.cw = 0 → cwForm f.cw = false →
      P (.ok (.wra ty (bufArgOf f) f.idx.toInt f.cnt.toInt)))
    (h_rda : ∀ ty, cwOp f.cw = 0x13 → cwTy f.cw = codeOfTy ty → cwHigh f.cw = 0 → cwForm f.cw = false →
      P (.ok (.rda ty (bufArgOf f) f.idx.toInt f.cnt.toInt)))
    (h_untyped : ∀ i, untypedOf (cwOp f.cw) f = some i → cwTy f.cw = 0 → cwForm f.cw = false → cwBuf f.cw = false →
      cwHigh f.cw = 0 → P (.ok i)) : P (decode f) := by
  unfold decode
  split
  · exact h_error _
  · rename_i hh
    have hh : cwHigh f.cw = 0 := by omega
    split
    · unfold scalarOf typedOf
      split
      · exact h_error _
      · split
        · rename_i h₁ h₂ _ ty h₃
          exact h_wr ty h₁ (codeOfTy_of_tyOfCode h₃) hh (by simpa using h₂)
        · exact h_error _
    · unfold scalarOf typedOf
      split
      · exact h_error _
      · split
        · rename_i h₁ h₂ _ ty h₃
          exact h_rd ty h₁ (codeOfTy_of_tyOfCode h₃) hh (by simpa using h₂)
        · exact h_error _
    · unfold arrayOf typedOf
      split
      · exact h_error _
      · split
        · rename_i h₁ h₂ _ ty h₃
          exact h_wra ty h₁ (codeOfTy_of_tyOfCode h₃) hh (by simpa using h₂)
        · exact h_error _
    · unfold arrayOf typedOf
      split
      · exact h_error _
      · split
        · rename_i h₁ h₂ _ ty h₃
          exact h_rda ty h₁ (codeOfTy_of_tyOfCode h₃) hh (by simpa using h₂)
        · exact h_error _
    · split
      · exact h_error _
      · rename_i i hi
        split
        · exact h_error _
        split
        · exact h_error _
        split
        · exact h_error _
        · exact h_untyped i hi (by omega) (by simp_all) (by simp_all) hh

end Sys2Proof
end

