-- ==== Sys2Proof/Laws/Exec.lean ====
section
/-! SUPPORT. The dispatcher on the four typed families, and what every shared operation keeps in EVERY state, those
that no run reaches too. -/

namespace Sys2Proof.Machine

/-! ### The typed families run their templates -/

theorem exec_wr (ty : ScalarTy) (a : DWord) (f : Form) (s : State) : exec (.wr ty a f) s = writeScalar ty a f s := by
  cases ty <;> rfl

theorem exec_rd (ty : ScalarTy) (f : Form) (s : State) : exec (.rd ty f) s = readScalar ty f s := by
  cases ty <;> rfl

theorem exec_wra (ty : ScalarTy) (b : BufArg) (off cnt : Int) (s : State) :
    exec (.wra ty b off cnt) s = writeArray ty b off cnt s := by
  cases ty <;> rfl

theorem exec_rda (ty : ScalarTy) (b : BufArg) (off cnt : Int) (s : State) :
    exec (.rda ty b off cnt) s = readArray ty b off cnt s := by
  cases ty <;> rfl

@[simp] theorem kindOf_wr (ty : ScalarTy) (a : DWord) (f : Form) : kindOf (.wr ty a f) = .write := by cases ty <;> rfl

@[simp] theorem kindOf_rd (ty : ScalarTy) (f : Form) : kindOf (.rd ty f) = .read := by cases ty <;> rfl

@[simp] theorem kindOf_wra (ty : ScalarTy) (b : BufArg) (off cnt : Int) : kindOf (.wra ty b off cnt) = .arrayWrite := by
  cases ty <;> rfl

@[simp] theorem kindOf_rda (ty : ScalarTy) (b : BufArg) (off cnt : Int) : kindOf (.rda ty b off cnt) = .arrayRead := by
  cases ty <;> rfl

@[simp] theorem isFieldForm_wr (ty : ScalarTy) (a : DWord) (f : Form) : isFieldForm (.wr ty a f) = isField f := by
  cases ty <;> rfl

@[simp] theorem isFieldForm_rd (ty : ScalarTy) (f : Form) : isFieldForm (.rd ty f) = isField f := by cases ty <;> rfl

/-! ### The rows of R258 for the typed families -/

theorem mayRaise_wr (ty : ScalarTy) (a : DWord) (f : Form) :
    mayRaise (.wr ty a f) =
      if isField f then [.closedStream, .invalidArgument, .exhausted] else [.closedStream, .exhausted] := by
  simp only [mayRaise, kindOf_wr, isFieldForm_wr]

theorem mayRaise_rd (ty : ScalarTy) (f : Form) :
    mayRaise (.rd ty f) = if isField f then [.closedStream, .invalidArgument] else [.closedStream] := by
  simp only [mayRaise, kindOf_rd, isFieldForm_rd]

theorem mayRaise_wra (ty : ScalarTy) (b : BufArg) (off cnt : Int) :
    mayRaise (.wra ty b off cnt) = [.closedStream, .nullArgument, .invalidArgument, .exhausted] := by
  simp only [mayRaise, kindOf_wra]

theorem mayRaise_rda (ty : ScalarTy) (b : BufArg) (off cnt : Int) :
    mayRaise (.rda ty b off cnt) = [.closedStream, .nullArgument, .invalidArgument] := by
  simp only [mayRaise, kindOf_rda]

/-- The whole-value form is a legal field of every type (60_exceptions.md R252, 30_encoding.md R82). -/
theorem whole_not_invalid (ty : ScalarTy) : ¬ FieldInvalid (width ty) (fieldIndex .whole) (fieldCount (width ty) .whole) := by
  simp only [FieldInvalid, fieldIndex, fieldCount]
  omega

/-- A scalar command with an invalid field is in its field form. -/
theorem isField_of_invalid {ty : ScalarTy} {f : Form} (h : FieldInvalid (width ty) (fieldIndex f) (fieldCount (width ty) f)) :
    isField f = true := by
  cases f with
  | whole => exact absurd h (whole_not_invalid ty)
  | field => rfl

/-- A case split on an instruction by family: the sixteen untyped commands, then the four typed templates. -/
theorem instr_cases {P : Instr → Prop} (h_init : P .init) (h_initc : ∀ cap, P (.initc cap)) (h_close : P .close)
    (h_flush : P .flush) (h_getpos : P .getpos) (h_setpos : ∀ p, P (.setpos p)) (h_getlen : P .getlen) (h_len8 : P .len8)
    (h_len16 : P .len16) (h_len32 : P .len32) (h_len64 : P .len64) (h_canread : P .canread) (h_canwrite : P .canwrite)
    (h_canseek : P .canseek) (h_cansetlen : P .cansetlen) (h_canflush : P .canflush)
    (h_wr : ∀ ty a f, P (.wr ty a f)) (h_rd : ∀ ty f, P (.rd ty f)) (h_wra : ∀ ty b off cnt, P (.wra ty b off cnt))
    (h_rda : ∀ ty b off cnt, P (.rda ty b off cnt)) (i : Instr) : P i := by
  cases i
  case init => exact h_init
  case initc cap => exact h_initc cap
  case close => exact h_close
  case flush => exact h_flush
  case getpos => exact h_getpos
  case setpos p => exact h_setpos p
  case getlen => exact h_getlen
  case len8 => exact h_len8
  case len16 => exact h_len16
  case len32 => exact h_len32
  case len64 => exact h_len64
  case canread => exact h_canread
  case canwrite => exact h_canwrite
  case canseek => exact h_canseek
  case cansetlen => exact h_cansetlen
  case canflush => exact h_canflush
  case wrBool a f => exact h_wr .bool a f
  case wrByte a f => exact h_wr .byte a f
  case wrSbyte a f => exact h_wr .sbyte a f
  case wrChar a f => exact h_wr .char a f
  case wrShort a f => exact h_wr .short a f
  case wrUshort a f => exact h_wr .ushort a f
  case wrInt a f => exact h_wr .int a f
  case wrUint a f => exact h_wr .uint a f
  case wrFloat a f => exact h_wr .float a f
  case wrLong a f => exact h_wr .long a f
  case wrUlong a f => exact h_wr .ulong a f
  case rdBool f => exact h_rd .bool f
  case rdByte f => exact h_rd .byte f
  case rdSbyte f => exact h_rd .sbyte f
  case rdChar f => exact h_rd .char f
  case rdShort f => exact h_rd .short f
  case rdUshort f => exact h_rd .ushort f
  case rdInt f => exact h_rd .int f
  case rdUint f => exact h_rd .uint f
  case rdFloat f => exact h_rd .float f
  case rdLong f => exact h_rd .long f
  case rdUlong f => exact h_rd .ulong f
  case wraBool b o c => exact h_wra .bool b o c
  case wraByte b o c => exact h_wra .byte b o c
  case wraSbyte b o c => exact h_wra .sbyte b o c
  case wraChar b o c => exact h_wra .char b o c
  case wraShort b o c => exact h_wra .short b o c
  case wraUshort b o c => exact h_wra .ushort b o c
  case wraInt b o c => exact h_wra .int b o c
  case wraUint b o c => exact h_wra .uint b o c
  case wraFloat b o c => exact h_wra .float b o c
  case wraLong b o c => exact h_wra .long b o c
  case wraUlong b o c => exact h_wra .ulong b o c
  case rdaBool b o c => exact h_rda .bool b o c
  case rdaByte b o c => exact h_rda .byte b o c
  case rdaSbyte b o c => exact h_rda .sbyte b o c
  case rdaChar b o c => exact h_rda .char b o c
  case rdaShort b o c => exact h_rda .short b o c
  case rdaUshort b o c => exact h_rda .ushort b o c
  case rdaInt b o c => exact h_rda .int b o c
  case rdaUint b o c => exact h_rda .uint b o c
  case rdaFloat b o c => exact h_rda .float b o c
  case rdaLong b o c => exact h_rda .long b o c
  case rdaUlong b o c => exact h_rda .ulong b o c

/-! ### What a write keeps in every state -/

/-- The fields no write touches, and the two it only raises (20_memory.md R61). -/
structure Extends (s t : State) : Prop where
  isOpen : t.isOpen = s.isOpen
  maxWords : t.maxWords = s.maxWords
  pending : t.pending = s.pending
  buf : t.buf = s.buf
  answers : t.answers = s.answers
  len : s.len ≤ t.len
  wc : s.wc ≤ t.wc

theorem Extends.refl (s : State) : Extends s s := ⟨rfl, rfl, rfl, rfl, rfl, Nat.le_refl _, Nat.le_refl _⟩

theorem Extends.trans {s t u : State} (h₁ : Extends s t) (h₂ : Extends t u) : Extends s u :=
  ⟨h₂.isOpen.trans h₁.isOpen, h₂.maxWords.trans h₁.maxWords, h₂.pending.trans h₁.pending, h₂.buf.trans h₁.buf,
    h₂.answers.trans h₁.answers, h₁.len.trans h₂.len, h₁.wc.trans h₂.wc⟩

theorem writePass_extends (value : Word) (b c : Nat) (s : State) : Extends s (writePass value b c s) := by
  unfold writePass
  refine ⟨by simp, by simp, by simp, by simp, by simp, ?_, ?_⟩
  · simp only [advance_len]
    exact Nat.le_max_left _ _
  · simp only [advance_wc, memWrite_wc]
    unfold grow
    split
    · show s.wc ≤ s.wi + 1
      omega
    · exact Nat.le_refl _

theorem writeLoop_extends (value : Word) (b fuel c : Nat) (s : State) : Extends s (writeLoop value b fuel c s) := by
  induction fuel generalizing c s with
  | zero => exact Extends.refl s
  | succ fuel ih =>
    unfold writeLoop
    split
    · exact Extends.refl s
    · exact (writePass_extends value b c s).trans (ih _ _)

theorem writeHalf_extends (value : Word) (b c : Nat) (s : State) : Extends s (writeHalf value b c s) := by
  unfold writeHalf
  split
  · exact writeLoop_extends _ _ _ _ _
  · exact Extends.refl s

theorem writeField_extends (ty : ScalarTy) (value : DWord) (b c : Nat) (s : State) :
    Extends s (writeField ty value b c s) := by
  unfold writeField
  split
  · exact writeLoop_extends _ _ _ _ _
  · exact (writeHalf_extends _ _ _ _).trans (writeHalf_extends _ _ _ _)

theorem writeElems_extends (ty : ScalarTy) (k i : Nat) (s : State) : Extends s (writeElems ty k i s) := by
  induction k generalizing i s with
  | zero => exact Extends.refl s
  | succ k ih => exact (writeField_extends ty _ _ _ s).trans (ih _ _)

/-! ### What a read keeps in every state -/

/-- Only the cursor has moved. -/
def CursorOnly (s t : State) : Prop := t = { s with wi := t.wi, bo := t.bo }

theorem CursorOnly.refl (s : State) : CursorOnly s s := rfl

theorem CursorOnly.trans {s t u : State} (h₁ : CursorOnly s t) (h₂ : CursorOnly t u) : CursorOnly s u := by
  unfold CursorOnly at *
  rw [h₂, h₁]

theorem advance_cursorOnly (k : Nat) (s : State) : CursorOnly s (advance k s) := by
  unfold CursorOnly advance
  split <;> rfl

theorem readLoop_cursorOnly {b fuel rem : Nat} {value v : Word} {s t : State}
    (h : readLoop b fuel rem value s = .ok (v, t)) : CursorOnly s t := by
  induction fuel generalizing rem value s with
  | zero =>
    obtain ⟨rfl, rfl⟩ : value = v ∧ s = t := by simpa [readLoop] using h
    exact CursorOnly.refl _
  | succ fuel ih =>
    unfold readLoop at h
    split at h
    · obtain ⟨rfl, rfl⟩ : value = v ∧ s = t := by simpa using h
      exact CursorOnly.refl _
    · split at h
      · cases h
      · exact (advance_cursorOnly _ _).trans (ih h)

theorem readBits_cursorOnly {b c : Nat} {s : State} {r : ReadOut 32} (h : readBits b c s = .ok r) :
    CursorOnly s r.state := by
  unfold readBits at h
  split at h
  · cases h
  · rename_i hl
    obtain rfl : _ = r := by simpa using h
    exact readLoop_cursorOnly hl

theorem readHalf_cursorOnly {b c : Nat} {s : State} {r : ReadOut 32} (h : readHalf b c s = .ok r) :
    CursorOnly s r.state := by
  unfold readHalf at h
  split at h
  · exact readBits_cursorOnly h
  · obtain rfl : _ = r := by simpa using h
    exact CursorOnly.refl _

theorem readField_cursorOnly {ty : ScalarTy} {b c : Nat} {s : State} {r : ReadOut 64}
    (h : readField ty b c s = .ok r) : CursorOnly s r.state := by
  unfold readField at h
  split at h
  · split at h
    · cases h
    · rename_i hb
      obtain rfl : _ = r := by simpa using h
      exact readBits_cursorOnly hb
  · simp only [read64, Config.halfOrder] at h
    split at h
    · cases h
    · rename_i h₁
      split at h
      · cases h
      · rename_i h₂
        obtain rfl : _ = r := by simpa using h
        exact (readHalf_cursorOnly h₁).trans (readHalf_cursorOnly h₂)

/-- The loop of `RDA` moves the cursor and stores into the operand buffer, and does nothing else. -/
theorem readElems_frame {ty : ScalarTy} {k i total total' : Nat} {s t : State}
    (h : readElems ty k i total s = .ok (total', t)) : t = { s with wi := t.wi, bo := t.bo, buf := t.buf } := by
  induction k generalizing i total s with
  | zero =>
    obtain ⟨rfl, rfl⟩ : total = total' ∧ s = t := by simpa [readElems] using h
    rfl
  | succ k ih =>
    unfold readElems at h
    split at h
    · cases h
    · rename_i r hr
      have hc : CursorOnly s r.state := readField_cursorOnly hr
      unfold CursorOnly at hc
      split at h
      · obtain ⟨rfl, rfl⟩ : total = total' ∧ r.state = t := by simpa using h
        rw [hc]
      · have ht := ih h
        rw [ht, hc]
        rfl

end Sys2Proof.Machine
end

