-- ==== Sys2Proof/Laws/Outcome.lean ====
section
/-! SUPPORT. Everything an instruction that answers a next state can have done, said once, in every state: it failed and
changed nothing, or it succeeded within the frame of its kind. -/

namespace Sys2Proof.Machine

/-- The instruction failed with `st`, one of the failures of its row of R258, decided as R251 and R253 say. -/
structure Failed (i : Instr) (s : State) (st : Status) : Prop where
  mem : st ∈ mayRaise i
  closed : st = .closedStream ↔ s.isOpen = false ∧ needsOpen i = true
  range : st = .outOfRange → s.isOpen = true ∧ ∃ v : Int, i = .setpos v ∧ (v < 0 ∨ v > s.len)

/-- The instruction succeeded with V = `v` and N = `n`, and `u` is the state before its answer: the frame of each kind. -/
structure Done (i : Instr) (s : State) (v : DWord) (n : Nat) (u : State) : Prop where
  ready : ¬ (s.isOpen = false ∧ needsOpen i = true)
  answers : u.answers = s.answers
  pending : u.pending = s.pending
  maxWords : u.maxWords = s.maxWords
  count : kindOf i ≠ .read → kindOf i ≠ .arrayRead → n = 0
  value : kindOf i ≠ .read → kindOf i ≠ .accessor → kindOf i ≠ .flag → v = 0
  store : ¬ kindOf i ∈ [Kind.write, .arrayWrite, .init, .initCapacity] → u.mem = s.mem ∧ u.len = s.len ∧ u.wc = s.wc
  cursor : ¬ kindOf i ∈ [Kind.write, .read, .arrayWrite, .arrayRead, .setPosition, .init, .initCapacity] →
    u.wi = s.wi ∧ u.bo = s.bo
  isOpen : ¬ kindOf i ∈ [Kind.close, .init, .initCapacity] → u.isOpen = s.isOpen
  buf : kindOf i ≠ .arrayRead → u.buf = s.buf
  grows : kindOf i ≠ .init → kindOf i ≠ .initCapacity → s.len ≤ u.len ∧ s.wc ≤ u.wc

/-- The two things an instruction that answers a next state can have done. -/
inductive ExecCases (i : Instr) (s : State) : State → Prop
  | failed (st : Status) (h : Failed i s st) : ExecCases i s (raise st s)
  | done (v : DWord) (n : Nat) (u : State) (h : Done i s v n u) : ExecCases i s (respond v n u)

/-! ### Frames of the shapes of command -/

/-- A command that only answers, and needs an open unit or answers on any. -/
theorem Done.of_same {i : Instr} {s : State} {v : DWord} (hr : ¬ (s.isOpen = false ∧ needsOpen i = true))
    (hv : kindOf i ≠ .read → kindOf i ≠ .accessor → kindOf i ≠ .flag → v = 0) : Done i s v 0 s :=
  ⟨hr, rfl, rfl, rfl, fun _ _ => rfl, hv, fun _ => ⟨rfl, rfl, rfl⟩, fun _ => ⟨rfl, rfl⟩, fun _ => rfl, fun _ => rfl,
    fun _ _ => ⟨Nat.le_refl _, Nat.le_refl _⟩⟩

/-- A scalar write or an array write. -/
theorem Done.of_extends {i : Instr} {s u : State} (hk : kindOf i = .write ∨ kindOf i = .arrayWrite) (ho : s.isOpen ≠ false)
    (h : Extends s u) : Done i s 0 0 u where
  ready hc := ho hc.1
  answers := h.answers
  pending := h.pending
  maxWords := h.maxWords
  count _ _ := rfl
  value _ _ _ := rfl
  store hn := by rcases hk with hk | hk <;> simp [hk] at hn
  cursor hn := by rcases hk with hk | hk <;> simp [hk] at hn
  isOpen _ := h.isOpen
  buf _ := h.buf
  grows _ _ := ⟨h.len, h.wc⟩

/-- A scalar read. -/
theorem Done.of_cursorOnly {i : Instr} {s u : State} {v : DWord} {n : Nat} (hk : kindOf i = .read) (ho : s.isOpen ≠ false)
    (h : CursorOnly s u) : Done i s v n u := by
  unfold CursorOnly at h
  rw [h]
  exact ⟨fun hc => ho hc.1, rfl, rfl, rfl, fun hn => absurd hk hn, fun hn => absurd hk hn, fun _ => ⟨rfl, rfl, rfl⟩,
    fun hn => by simp [hk] at hn, fun _ => rfl, fun _ => rfl, fun _ _ => ⟨Nat.le_refl _, Nat.le_refl _⟩⟩

/-- An array read. -/
theorem Done.of_filled {i : Instr} {s u : State} {n : Nat} (hk : kindOf i = .arrayRead) (ho : s.isOpen ≠ false)
    (h : u = { s with wi := u.wi, bo := u.bo, buf := u.buf }) : Done i s 0 n u := by
  rw [h]
  exact ⟨fun hc => ho hc.1, rfl, rfl, rfl, fun _ hn => absurd hk hn, fun _ _ _ => rfl, fun _ => ⟨rfl, rfl, rfl⟩,
    fun hn => by simp [hk] at hn, fun _ => rfl, fun hn => absurd hk hn, fun _ _ => ⟨Nat.le_refl _, Nat.le_refl _⟩⟩

/-- A creation. -/
theorem Done.of_create {i : Instr} {s : State} {n : Nat} (hk : kindOf i = .init ∨ kindOf i = .initCapacity)
    (hr : needsOpen i = false) : Done i s 0 0 (create n s) where
  ready hc := by simp [hr] at hc
  answers := rfl
  pending := rfl
  maxWords := rfl
  count _ _ := rfl
  value _ _ _ := rfl
  store hn := by rcases hk with hk | hk <;> simp [hk] at hn
  cursor hn := by rcases hk with hk | hk <;> simp [hk] at hn
  isOpen hn := by rcases hk with hk | hk <;> simp [hk] at hn
  buf _ := rfl
  grows h₁ h₂ := by rcases hk with hk | hk <;> contradiction

/-- A failure on a closed unit. -/
theorem Failed.of_closed {i : Instr} {s : State} (ho : s.isOpen = false) (hm : .closedStream ∈ mayRaise i) :
    Failed i s .closedStream :=
  ⟨hm, ⟨fun _ => ⟨ho, decide_eq_true hm⟩, fun _ => rfl⟩, fun h => nomatch h⟩

/-- A failure of another kind than ClosedStream and OutOfRange. -/
theorem Failed.of_argument {i : Instr} {s : State} {st : Status} (hr : ¬ (s.isOpen = false ∧ needsOpen i = true))
    (hm : st ∈ mayRaise i) (h₁ : st ≠ .closedStream) (h₂ : st ≠ .outOfRange) : Failed i s st :=
  ⟨hm, ⟨fun h => absurd h h₁, fun h => absurd h hr⟩, fun h => absurd h h₂⟩

/-! ### The case split -/

theorem writeScalar_cases {ty : ScalarTy} {a : DWord} {f : Form} {s t : State} (h : writeScalar ty a f s = .next t) :
    ExecCases (.wr ty a f) s t := by
  unfold writeScalar at h
  split at h
  · rename_i ho
    cases h
    exact .failed _ (.of_closed ho (by rw [mayRaise_wr]; split <;> simp))
  · rename_i ho
    have hr : ¬ (s.isOpen = false ∧ needsOpen (.wr ty a f) = true) := fun hc => ho hc.1
    split at h
    · rename_i hi
      cases h
      exact .failed _ (.of_argument hr (by rw [mayRaise_wr, isField_of_invalid hi]; simp) nofun nofun)
    split at h
    · cases h
      exact .failed _ (.of_argument hr (by rw [mayRaise_wr]; split <;> simp) nofun nofun)
    · cases h
      exact .done _ _ _ (.of_extends (.inl (kindOf_wr ty a f)) ho (writeField_extends ty _ _ _ s))

theorem readScalar_cases {ty : ScalarTy} {f : Form} {s t : State} (h : readScalar ty f s = .next t) :
    ExecCases (.rd ty f) s t := by
  unfold readScalar at h
  split at h
  · rename_i ho
    cases h
    exact .failed _ (.of_closed ho (by rw [mayRaise_rd]; split <;> simp))
  · rename_i ho
    split at h
    · rename_i hi
      cases h
      exact .failed _ (.of_argument (fun hc => ho hc.1) (by rw [mayRaise_rd, isField_of_invalid hi]; simp) nofun nofun)
    split at h
    · cases h
    · rename_i hr
      cases h
      exact .done _ _ _ (.of_cursorOnly (kindOf_rd ty f) ho (readField_cursorOnly hr))

theorem writeArray_cases {ty : ScalarTy} {b : BufArg} {off cnt : Int} {s t : State}
    (h : writeArray ty b off cnt s = .next t) : ExecCases (.wra ty b off cnt) s t := by
  unfold writeArray at h
  split at h
  · rename_i ho
    cases h
    exact .failed _ (.of_closed ho (by rw [mayRaise_wra]; simp))
  · rename_i ho
    have hr : ¬ (s.isOpen = false ∧ needsOpen (.wra ty b off cnt) = true) := fun hc => ho hc.1
    split at h
    · cases h
      exact .failed _ (.of_argument hr (by rw [mayRaise_wra]; simp) nofun nofun)
    split at h
    · cases h
      exact .failed _ (.of_argument hr (by rw [mayRaise_wra]; simp) nofun nofun)
    split at h
    · cases h
      exact .failed _ (.of_argument hr (by rw [mayRaise_wra]; simp) nofun nofun)
    · cases h
      exact .done _ _ _ (.of_extends (.inr (kindOf_wra ..)) ho (writeElems_extends ty _ _ s))

theorem readArray_cases {ty : ScalarTy} {b : BufArg} {off cnt : Int} {s t : State}
    (h : readArray ty b off cnt s = .next t) : ExecCases (.rda ty b off cnt) s t := by
  unfold readArray at h
  split at h
  · rename_i ho
    cases h
    exact .failed _ (.of_closed ho (by rw [mayRaise_rda]; simp))
  · rename_i ho
    have hr : ¬ (s.isOpen = false ∧ needsOpen (.rda ty b off cnt) = true) := fun hc => ho hc.1
    split at h
    · cases h
      exact .failed _ (.of_argument hr (by rw [mayRaise_rda]; simp) nofun nofun)
    split at h
    · cases h
      exact .failed _ (.of_argument hr (by rw [mayRaise_rda]; simp) nofun nofun)
    split at h
    · cases h
    · rename_i he
      cases h
      exact .done _ _ _ (.of_filled (kindOf_rda ..) ho (readElems_frame he))

theorem setpos_cases {p : Int} {s t : State} (h : execSetpos p s = .next t) : ExecCases (.setpos p) s t := by
  unfold execSetpos at h
  split at h
  · rename_i ho
    cases h
    exact .failed _ (.of_closed ho (by simp [mayRaise, kindOf]))
  · rename_i ho
    have hopen : s.isOpen = true := by simpa using ho
    split at h
    · rename_i hp
      cases h
      exact .failed _ ⟨by simp [mayRaise, kindOf], by simp [hopen], fun _ => ⟨hopen, p, rfl, by omega⟩⟩
    · cases h
      exact .done _ _ _ ⟨fun hc => ho hc.1, rfl, rfl, rfl, fun _ _ => rfl, fun _ _ _ => rfl, fun _ => ⟨rfl, rfl, rfl⟩,
        fun hn => by simp [kindOf] at hn, fun _ => rfl, fun _ => rfl, fun _ _ => ⟨Nat.le_refl _, Nat.le_refl _⟩⟩

theorem initc_cases {cap : Int} {s t : State} (h : execInitc cap s = .next t) : ExecCases (.initc cap) s t := by
  have hn : needsOpen (.initc cap) = false := by simp [needsOpen, mayRaise, kindOf]
  have hr : ¬ (s.isOpen = false ∧ needsOpen (.initc cap) = true) := by simp [hn]
  unfold execInitc at h
  split at h
  · cases h
    exact .failed _ (.of_argument hr (by simp [mayRaise, kindOf]) nofun nofun)
  split at h
  · cases h
    exact .failed _ (.of_argument hr (by simp [mayRaise, kindOf]) nofun nofun)
  · cases h
    exact .done _ _ _ (.of_create (.inr rfl) hn)

/-- The accessors and FLUSH: ClosedStream on a closed unit, or an answer and nothing else. -/
theorem answer_cases {i : Instr} {s t : State} {v : DWord} (hm : .closedStream ∈ mayRaise i)
    (hv : kindOf i ≠ .read → kindOf i ≠ .accessor → kindOf i ≠ .flag → v = 0)
    (h : (if s.isOpen = false then .next (raise .closedStream s) else .next (respond v 0 s) :
      Host.Outcome State Fault Refusal) = .next t) : ExecCases i s t := by
  split at h
  · rename_i ho
    cases h
    exact .failed _ (.of_closed ho hm)
  · rename_i ho
    cases h
    exact .done _ _ _ (.of_same (fun hc => ho hc.1) hv)

/-- What an instruction that answers a next state has done, whatever the instruction and the state. -/
theorem exec_cases {i : Instr} {s t : State} (h : exec i s = .next t) : ExecCases i s t := by
  induction i using instr_cases
  case h_wr ty a f => exact writeScalar_cases (by rwa [exec_wr] at h)
  case h_rd ty f => exact readScalar_cases (by rwa [exec_rd] at h)
  case h_wra ty b off cnt => exact writeArray_cases (by rwa [exec_wra] at h)
  case h_rda ty b off cnt => exact readArray_cases (by rwa [exec_rda] at h)
  case h_setpos p => exact setpos_cases h
  case h_initc cap => exact initc_cases h
  case h_init =>
    cases h
    exact .done _ _ _ (.of_create (.inl rfl) (by decide))
  case h_close =>
    cases h
    exact .done _ _ _ ⟨by simp [needsOpen, mayRaise, kindOf], rfl, rfl, rfl, fun _ _ => rfl, fun _ _ _ => rfl, fun _ => ⟨rfl, rfl, rfl⟩,
      fun _ => ⟨rfl, rfl⟩, fun hn => by simp [kindOf] at hn, fun _ => rfl, fun _ _ => ⟨Nat.le_refl _, Nat.le_refl _⟩⟩
  case h_flush => exact answer_cases (by decide) (fun _ _ _ => rfl) h
  case h_getpos | h_getlen | h_len8 | h_len16 | h_len32 | h_len64 =>
    exact answer_cases (by decide) (fun _ hn => absurd rfl hn) h
  case h_canread | h_canwrite | h_canseek | h_cansetlen | h_canflush =>
    cases h
    exact .done _ _ _ (.of_same (by simp [needsOpen, mayRaise, kindOf]) (fun _ _ hn => absurd rfl hn))

end Sys2Proof.Machine
end

