-- ==== Sys2Proof/Laws/PerInstr.lean ====
section
/-! SUPPORT. Statements made per instruction, one lemma for each constructor. -/

namespace Sys2Proof.Laws.OpcodeRow

/-- The control word the encoder gives an instruction, in every form and with every operand, matches the row the opcode
table has for it (30_encoding.md R86). -/
def Statement (i : Instr) : Prop := (encode i).cw &&& rowMask i = rowMatch i

theorem init : Statement .init :=
  (by decide : cwOf 0x01 0 false false &&& 0xFFFFFFFF#32 = 0x001#32)

theorem initc (cap : Int) : Statement (.initc cap) :=
  (by decide : cwOf 0x02 0 false false &&& 0xFFFFFFFF#32 = 0x002#32)

theorem close : Statement .close :=
  (by decide : cwOf 0x03 0 false false &&& 0xFFFFFFFF#32 = 0x003#32)

theorem flush : Statement .flush :=
  (by decide : cwOf 0x04 0 false false &&& 0xFFFFFFFF#32 = 0x004#32)

theorem getpos : Statement .getpos :=
  (by decide : cwOf 0x20 0 false false &&& 0xFFFFFFFF#32 = 0x020#32)

theorem setpos (p : Int) : Statement (.setpos p) :=
  (by decide : cwOf 0x21 0 false false &&& 0xFFFFFFFF#32 = 0x021#32)

theorem getlen : Statement .getlen :=
  (by decide : cwOf 0x22 0 false false &&& 0xFFFFFFFF#32 = 0x022#32)

theorem len8 : Statement .len8 :=
  (by decide : cwOf 0x23 0 false false &&& 0xFFFFFFFF#32 = 0x023#32)

theorem len16 : Statement .len16 :=
  (by decide : cwOf 0x24 0 false false &&& 0xFFFFFFFF#32 = 0x024#32)

theorem len32 : Statement .len32 :=
  (by decide : cwOf 0x25 0 false false &&& 0xFFFFFFFF#32 = 0x025#32)

theorem len64 : Statement .len64 :=
  (by decide : cwOf 0x26 0 false false &&& 0xFFFFFFFF#32 = 0x026#32)

theorem canread : Statement .canread :=
  (by decide : cwOf 0x30 0 false false &&& 0xFFFFFFFF#32 = 0x030#32)

theorem canwrite : Statement .canwrite :=
  (by decide : cwOf 0x31 0 false false &&& 0xFFFFFFFF#32 = 0x031#32)

theorem canseek : Statement .canseek :=
  (by decide : cwOf 0x32 0 false false &&& 0xFFFFFFFF#32 = 0x032#32)

theorem cansetlen : Statement .cansetlen :=
  (by decide : cwOf 0x33 0 false false &&& 0xFFFFFFFF#32 = 0x033#32)

theorem canflush : Statement .canflush :=
  (by decide : cwOf 0x34 0 false false &&& 0xFFFFFFFF#32 = 0x034#32)

theorem wrBool (a : DWord) (f : Form) : Statement (.wrBool a f) := match f with
  | .whole => (by decide : cwOf 0x10 0 false false &&& 0xFFFFEFFF#32 = 0x010#32)
  | .field _ _ => (by decide : cwOf 0x10 0 true false &&& 0xFFFFEFFF#32 = 0x010#32)

theorem wrByte (a : DWord) (f : Form) : Statement (.wrByte a f) := match f with
  | .whole => (by decide : cwOf 0x10 1 false false &&& 0xFFFFEFFF#32 = 0x110#32)
  | .field _ _ => (by decide : cwOf 0x10 1 true false &&& 0xFFFFEFFF#32 = 0x110#32)

theorem wrSbyte (a : DWord) (f : Form) : Statement (.wrSbyte a f) := match f with
  | .whole => (by decide : cwOf 0x10 2 false false &&& 0xFFFFEFFF#32 = 0x210#32)
  | .field _ _ => (by decide : cwOf 0x10 2 true false &&& 0xFFFFEFFF#32 = 0x210#32)

theorem wrChar (a : DWord) (f : Form) : Statement (.wrChar a f) := match f with
  | .whole => (by decide : cwOf 0x10 3 false false &&& 0xFFFFEFFF#32 = 0x310#32)
  | .field _ _ => (by decide : cwOf 0x10 3 true false &&& 0xFFFFEFFF#32 = 0x310#32)

theorem wrShort (a : DWord) (f : Form) : Statement (.wrShort a f) := match f with
  | .whole => (by decide : cwOf 0x10 4 false false &&& 0xFFFFEFFF#32 = 0x410#32)
  | .field _ _ => (by decide : cwOf 0x10 4 true false &&& 0xFFFFEFFF#32 = 0x410#32)

theorem wrUshort (a : DWord) (f : Form) : Statement (.wrUshort a f) := match f with
  | .whole => (by decide : cwOf 0x10 5 false false &&& 0xFFFFEFFF#32 = 0x510#32)
  | .field _ _ => (by decide : cwOf 0x10 5 true false &&& 0xFFFFEFFF#32 = 0x510#32)

theorem wrInt (a : DWord) (f : Form) : Statement (.wrInt a f) := match f with
  | .whole => (by decide : cwOf 0x10 6 false false &&& 0xFFFFEFFF#32 = 0x610#32)
  | .field _ _ => (by decide : cwOf 0x10 6 true false &&& 0xFFFFEFFF#32 = 0x610#32)

theorem wrUint (a : DWord) (f : Form) : Statement (.wrUint a f) := match f with
  | .whole => (by decide : cwOf 0x10 7 false false &&& 0xFFFFEFFF#32 = 0x710#32)
  | .field _ _ => (by decide : cwOf 0x10 7 true false &&& 0xFFFFEFFF#32 = 0x710#32)

theorem wrFloat (a : DWord) (f : Form) : Statement (.wrFloat a f) := match f with
  | .whole => (by decide : cwOf 0x10 8 false false &&& 0xFFFFEFFF#32 = 0x810#32)
  | .field _ _ => (by decide : cwOf 0x10 8 true false &&& 0xFFFFEFFF#32 = 0x810#32)

theorem wrLong (a : DWord) (f : Form) : Statement (.wrLong a f) := match f with
  | .whole => (by decide : cwOf 0x10 9 false false &&& 0xFFFFEFFF#32 = 0x910#32)
  | .field _ _ => (by decide : cwOf 0x10 9 true false &&& 0xFFFFEFFF#32 = 0x910#32)

theorem wrUlong (a : DWord) (f : Form) : Statement (.wrUlong a f) := match f with
  | .whole => (by decide : cwOf 0x10 10 false false &&& 0xFFFFEFFF#32 = 0xA10#32)
  | .field _ _ => (by decide : cwOf 0x10 10 true false &&& 0xFFFFEFFF#32 = 0xA10#32)

theorem rdBool (f : Form) : Statement (.rdBool f) := match f with
  | .whole => (by decide : cwOf 0x11 0 false false &&& 0xFFFFEFFF#32 = 0x011#32)
  | .field _ _ => (by decide : cwOf 0x11 0 true false &&& 0xFFFFEFFF#32 = 0x011#32)

theorem rdByte (f : Form) : Statement (.rdByte f) := match f with
  | .whole => (by decide : cwOf 0x11 1 false false &&& 0xFFFFEFFF#32 = 0x111#32)
  | .field _ _ => (by decide : cwOf 0x11 1 true false &&& 0xFFFFEFFF#32 = 0x111#32)

theorem rdSbyte (f : Form) : Statement (.rdSbyte f) := match f with
  | .whole => (by decide : cwOf 0x11 2 false false &&& 0xFFFFEFFF#32 = 0x211#32)
  | .field _ _ => (by decide : cwOf 0x11 2 true false &&& 0xFFFFEFFF#32 = 0x211#32)

theorem rdChar (f : Form) : Statement (.rdChar f) := match f with
  | .whole => (by decide : cwOf 0x11 3 false false &&& 0xFFFFEFFF#32 = 0x311#32)
  | .field _ _ => (by decide : cwOf 0x11 3 true false &&& 0xFFFFEFFF#32 = 0x311#32)

theorem rdShort (f : Form) : Statement (.rdShort f) := match f with
  | .whole => (by decide : cwOf 0x11 4 false false &&& 0xFFFFEFFF#32 = 0x411#32)
  | .field _ _ => (by decide : cwOf 0x11 4 true false &&& 0xFFFFEFFF#32 = 0x411#32)

theorem rdUshort (f : Form) : Statement (.rdUshort f) := match f with
  | .whole => (by decide : cwOf 0x11 5 false false &&& 0xFFFFEFFF#32 = 0x511#32)
  | .field _ _ => (by decide : cwOf 0x11 5 true false &&& 0xFFFFEFFF#32 = 0x511#32)

theorem rdInt (f : Form) : Statement (.rdInt f) := match f with
  | .whole => (by decide : cwOf 0x11 6 false false &&& 0xFFFFEFFF#32 = 0x611#32)
  | .field _ _ => (by decide : cwOf 0x11 6 true false &&& 0xFFFFEFFF#32 = 0x611#32)

theorem rdUint (f : Form) : Statement (.rdUint f) := match f with
  | .whole => (by decide : cwOf 0x11 7 false false &&& 0xFFFFEFFF#32 = 0x711#32)
  | .field _ _ => (by decide : cwOf 0x11 7 true false &&& 0xFFFFEFFF#32 = 0x711#32)

theorem rdFloat (f : Form) : Statement (.rdFloat f) := match f with
  | .whole => (by decide : cwOf 0x11 8 false false &&& 0xFFFFEFFF#32 = 0x811#32)
  | .field _ _ => (by decide : cwOf 0x11 8 true false &&& 0xFFFFEFFF#32 = 0x811#32)

theorem rdLong (f : Form) : Statement (.rdLong f) := match f with
  | .whole => (by decide : cwOf 0x11 9 false false &&& 0xFFFFEFFF#32 = 0x911#32)
  | .field _ _ => (by decide : cwOf 0x11 9 true false &&& 0xFFFFEFFF#32 = 0x911#32)

theorem rdUlong (f : Form) : Statement (.rdUlong f) := match f with
  | .whole => (by decide : cwOf 0x11 10 false false &&& 0xFFFFEFFF#32 = 0xA11#32)
  | .field _ _ => (by decide : cwOf 0x11 10 true false &&& 0xFFFFEFFF#32 = 0xA11#32)

theorem wraBool (b : BufArg) (off cnt : Int) : Statement (.wraBool b off cnt) := match b with
  | .null => (by decide : cwOf 0x12 0 false false &&& 0xFFFFDFFF#32 = 0x012#32)
  | .present _ => (by decide : cwOf 0x12 0 false true &&& 0xFFFFDFFF#32 = 0x012#32)

theorem wraByte (b : BufArg) (off cnt : Int) : Statement (.wraByte b off cnt) := match b with
  | .null => (by decide : cwOf 0x12 1 false false &&& 0xFFFFDFFF#32 = 0x112#32)
  | .present _ => (by decide : cwOf 0x12 1 false true &&& 0xFFFFDFFF#32 = 0x112#32)

theorem wraSbyte (b : BufArg) (off cnt : Int) : Statement (.wraSbyte b off cnt) := match b with
  | .null => (by decide : cwOf 0x12 2 false false &&& 0xFFFFDFFF#32 = 0x212#32)
  | .present _ => (by decide : cwOf 0x12 2 false true &&& 0xFFFFDFFF#32 = 0x212#32)

theorem wraChar (b : BufArg) (off cnt : Int) : Statement (.wraChar b off cnt) := match b with
  | .null => (by decide : cwOf 0x12 3 false false &&& 0xFFFFDFFF#32 = 0x312#32)
  | .present _ => (by decide : cwOf 0x12 3 false true &&& 0xFFFFDFFF#32 = 0x312#32)

theorem wraShort (b : BufArg) (off cnt : Int) : Statement (.wraShort b off cnt) := match b with
  | .null => (by decide : cwOf 0x12 4 false false &&& 0xFFFFDFFF#32 = 0x412#32)
  | .present _ => (by decide : cwOf 0x12 4 false true &&& 0xFFFFDFFF#32 = 0x412#32)

theorem wraUshort (b : BufArg) (off cnt : Int) : Statement (.wraUshort b off cnt) := match b with
  | .null => (by decide : cwOf 0x12 5 false false &&& 0xFFFFDFFF#32 = 0x512#32)
  | .present _ => (by decide : cwOf 0x12 5 false true &&& 0xFFFFDFFF#32 = 0x512#32)

theorem wraInt (b : BufArg) (off cnt : Int) : Statement (.wraInt b off cnt) := match b with
  | .null => (by decide : cwOf 0x12 6 false false &&& 0xFFFFDFFF#32 = 0x612#32)
  | .present _ => (by decide : cwOf 0x12 6 false true &&& 0xFFFFDFFF#32 = 0x612#32)

theorem wraUint (b : BufArg) (off cnt : Int) : Statement (.wraUint b off cnt) := match b with
  | .null => (by decide : cwOf 0x12 7 false false &&& 0xFFFFDFFF#32 = 0x712#32)
  | .present _ => (by decide : cwOf 0x12 7 false true &&& 0xFFFFDFFF#32 = 0x712#32)

theorem wraFloat (b : BufArg) (off cnt : Int) : Statement (.wraFloat b off cnt) := match b with
  | .null => (by decide : cwOf 0x12 8 false false &&& 0xFFFFDFFF#32 = 0x812#32)
  | .present _ => (by decide : cwOf 0x12 8 false true &&& 0xFFFFDFFF#32 = 0x812#32)

theorem wraLong (b : BufArg) (off cnt : Int) : Statement (.wraLong b off cnt) := match b with
  | .null => (by decide : cwOf 0x12 9 false false &&& 0xFFFFDFFF#32 = 0x912#32)
  | .present _ => (by decide : cwOf 0x12 9 false true &&& 0xFFFFDFFF#32 = 0x912#32)

theorem wraUlong (b : BufArg) (off cnt : Int) : Statement (.wraUlong b off cnt) := match b with
  | .null => (by decide : cwOf 0x12 10 false false &&& 0xFFFFDFFF#32 = 0xA12#32)
  | .present _ => (by decide : cwOf 0x12 10 false true &&& 0xFFFFDFFF#32 = 0xA12#32)

theorem rdaBool (b : BufArg) (off cnt : Int) : Statement (.rdaBool b off cnt) := match b with
  | .null => (by decide : cwOf 0x13 0 false false &&& 0xFFFFDFFF#32 = 0x013#32)
  | .present _ => (by decide : cwOf 0x13 0 false true &&& 0xFFFFDFFF#32 = 0x013#32)

theorem rdaByte (b : BufArg) (off cnt : Int) : Statement (.rdaByte b off cnt) := match b with
  | .null => (by decide : cwOf 0x13 1 false false &&& 0xFFFFDFFF#32 = 0x113#32)
  | .present _ => (by decide : cwOf 0x13 1 false true &&& 0xFFFFDFFF#32 = 0x113#32)

theorem rdaSbyte (b : BufArg) (off cnt : Int) : Statement (.rdaSbyte b off cnt) := match b with
  | .null => (by decide : cwOf 0x13 2 false false &&& 0xFFFFDFFF#32 = 0x213#32)
  | .present _ => (by decide : cwOf 0x13 2 false true &&& 0xFFFFDFFF#32 = 0x213#32)

theorem rdaChar (b : BufArg) (off cnt : Int) : Statement (.rdaChar b off cnt) := match b with
  | .null => (by decide : cwOf 0x13 3 false false &&& 0xFFFFDFFF#32 = 0x313#32)
  | .present _ => (by decide : cwOf 0x13 3 false true &&& 0xFFFFDFFF#32 = 0x313#32)

theorem rdaShort (b : BufArg) (off cnt : Int) : Statement (.rdaShort b off cnt) := match b with
  | .null => (by decide : cwOf 0x13 4 false false &&& 0xFFFFDFFF#32 = 0x413#32)
  | .present _ => (by decide : cwOf 0x13 4 false true &&& 0xFFFFDFFF#32 = 0x413#32)

theorem rdaUshort (b : BufArg) (off cnt : Int) : Statement (.rdaUshort b off cnt) := match b with
  | .null => (by decide : cwOf 0x13 5 false false &&& 0xFFFFDFFF#32 = 0x513#32)
  | .present _ => (by decide : cwOf 0x13 5 false true &&& 0xFFFFDFFF#32 = 0x513#32)

theorem rdaInt (b : BufArg) (off cnt : Int) : Statement (.rdaInt b off cnt) := match b with
  | .null => (by decide : cwOf 0x13 6 false false &&& 0xFFFFDFFF#32 = 0x613#32)
  | .present _ => (by decide : cwOf 0x13 6 false true &&& 0xFFFFDFFF#32 = 0x613#32)

theorem rdaUint (b : BufArg) (off cnt : Int) : Statement (.rdaUint b off cnt) := match b with
  | .null => (by decide : cwOf 0x13 7 false false &&& 0xFFFFDFFF#32 = 0x713#32)
  | .present _ => (by decide : cwOf 0x13 7 false true &&& 0xFFFFDFFF#32 = 0x713#32)

theorem rdaFloat (b : BufArg) (off cnt : Int) : Statement (.rdaFloat b off cnt) := match b with
  | .null => (by decide : cwOf 0x13 8 false false &&& 0xFFFFDFFF#32 = 0x813#32)
  | .present _ => (by decide : cwOf 0x13 8 false true &&& 0xFFFFDFFF#32 = 0x813#32)

theorem rdaLong (b : BufArg) (off cnt : Int) : Statement (.rdaLong b off cnt) := match b with
  | .null => (by decide : cwOf 0x13 9 false false &&& 0xFFFFDFFF#32 = 0x913#32)
  | .present _ => (by decide : cwOf 0x13 9 false true &&& 0xFFFFDFFF#32 = 0x913#32)

theorem rdaUlong (b : BufArg) (off cnt : Int) : Statement (.rdaUlong b off cnt) := match b with
  | .null => (by decide : cwOf 0x13 10 false false &&& 0xFFFFDFFF#32 = 0xA13#32)
  | .present _ => (by decide : cwOf 0x13 10 false true &&& 0xFFFFDFFF#32 = 0xA13#32)

end Sys2Proof.Laws.OpcodeRow
end

