-- ==== Sys2Proof/Tests/Slice0.lean ====
section
/-! SUPPORT. The model's own tests: well-formedness, decoding of words written out from spec/30_encoding.md, one step of
each instruction on a vector of spec/95_test_vectors.md (the vector's number stands in the docstring), and for each
statement with hypotheses a state and operands that meet them. -/

namespace Sys2Proof.Tests

open Sys2Proof Sys2Proof.Machine

/-! ### Well-formedness: each check refuses an ill-formed term -/

theorem test_wf_bit_index_too_large : (Instr.wrByte 0 (.field (2 ^ 31) 0)).wellFormed = false := by decide
theorem test_wf_bit_index_too_small : (Instr.rdByte (.field (-(2 ^ 31) - 1) 0)).wellFormed = false := by decide
theorem test_wf_count_too_large : (Instr.rdUlong (.field 0 (2 ^ 31))).wellFormed = false := by decide
theorem test_wf_count_too_small : (Instr.wrUlong 0 (.field 0 (-(2 ^ 31) - 1))).wellFormed = false := by decide
theorem test_wf_buffer_too_long : (Instr.wraInt (.present (2 ^ 32)) 0 0).wellFormed = false := by decide
theorem test_wf_offset_too_large : (Instr.rdaInt (.present 1) (2 ^ 31) 0).wellFormed = false := by decide
theorem test_wf_element_count_too_small : (Instr.wraByte .null 0 (-(2 ^ 31) - 1)).wellFormed = false := by decide
theorem test_wf_capacity_too_large : (Instr.initc (2 ^ 63)).wellFormed = false := by decide
theorem test_wf_position_too_small : (Instr.setpos (-(2 ^ 63) - 1)).wellFormed = false := by decide

/-! ### Decoding: the control words of R85 and R86, one for each constructor -/

/-- OP alone, TY, F and BP zero. -/
theorem test_decode_untyped :
    [0x00000001, 0x00000002, 0x00000003, 0x00000004, 0x00000020, 0x00000021, 0x00000022, 0x00000023, 0x00000024,
      0x00000025, 0x00000026, 0x00000030, 0x00000031, 0x00000032, 0x00000033, 0x00000034].map (decodeTableWord 32) =
    [some .init, some (.initc 0), some .close, some .flush, some .getpos, some (.setpos 0), some .getlen,
      some .len8, some .len16, some .len32, some .len64, some .canread, some .canwrite, some .canseek,
      some .cansetlen, some .canflush] := by decide

/-- OP 0x10, TY 0 to 10. -/
theorem test_decode_wr :
    [0x00000010, 0x00000110, 0x00000210, 0x00000310, 0x00000410, 0x00000510, 0x00000610, 0x00000710, 0x00000810,
      0x00000910, 0x00000A10].map (decodeTableWord 32) =
    [some (.wrBool 0 .whole), some (.wrByte 0 .whole), some (.wrSbyte 0 .whole), some (.wrChar 0 .whole),
      some (.wrShort 0 .whole), some (.wrUshort 0 .whole), some (.wrInt 0 .whole), some (.wrUint 0 .whole),
      some (.wrFloat 0 .whole), some (.wrLong 0 .whole), some (.wrUlong 0 .whole)] := by decide

/-- OP 0x11, TY 0 to 10. -/
theorem test_decode_rd :
    [0x00000011, 0x00000111, 0x00000211, 0x00000311, 0x00000411, 0x00000511, 0x00000611, 0x00000711, 0x00000811,
      0x00000911, 0x00000A11].map (decodeTableWord 32) =
    [some (.rdBool .whole), some (.rdByte .whole), some (.rdSbyte .whole), some (.rdChar .whole),
      some (.rdShort .whole), some (.rdUshort .whole), some (.rdInt .whole), some (.rdUint .whole),
      some (.rdFloat .whole), some (.rdLong .whole), some (.rdUlong .whole)] := by decide

/-- OP 0x12, TY 0 to 10, no buffer. -/
theorem test_decode_wra :
    [0x00000012, 0x00000112, 0x00000212, 0x00000312, 0x00000412, 0x00000512, 0x00000612, 0x00000712, 0x00000812,
      0x00000912, 0x00000A12].map (decodeTableWord 32) =
    [some (.wraBool .null 0 0), some (.wraByte .null 0 0), some (.wraSbyte .null 0 0),
      some (.wraChar .null 0 0), some (.wraShort .null 0 0), some (.wraUshort .null 0 0),
      some (.wraInt .null 0 0), some (.wraUint .null 0 0), some (.wraFloat .null 0 0), some (.wraLong .null 0 0),
      some (.wraUlong .null 0 0)] := by decide

/-- OP 0x13, TY 0 to 10, no buffer. -/
theorem test_decode_rda :
    [0x00000013, 0x00000113, 0x00000213, 0x00000313, 0x00000413, 0x00000513, 0x00000613, 0x00000713, 0x00000813,
      0x00000913, 0x00000A13].map (decodeTableWord 32) =
    [some (.rdaBool .null 0 0), some (.rdaByte .null 0 0), some (.rdaSbyte .null 0 0),
      some (.rdaChar .null 0 0), some (.rdaShort .null 0 0), some (.rdaUshort .null 0 0),
      some (.rdaInt .null 0 0), some (.rdaUint .null 0 0), some (.rdaFloat .null 0 0), some (.rdaLong .null 0 0),
      some (.rdaUlong .null 0 0)] := by decide

/-- F = 1, with a negative bit index and the largest count. -/
theorem test_decode_field_form :
    decode ⟨0x00001110, 0x1234, 0xFFFFFFFF, 0x7FFFFFFF, 9⟩ = .ok (.wrByte 0x1234 (.field (-1) 2147483647)) ∧
    decode ⟨0x00001A11, 7, 0x00000040, 0x80000000, 9⟩ = .ok (.rdUlong (.field 64 (-2147483648))) := by decide

/-- BP = 1, with the largest buffer. -/
theorem test_decode_buffer_present :
    decode ⟨0x00002112, 1, 0xFFFFFFFF, 0x00000005, 0xFFFFFFFF⟩ = .ok (.wraByte (.present 4294967295) (-1) 5) ∧
    decode ⟨0x00002A13, 1, 2, 3, 4⟩ = .ok (.rdaUlong (.present 4) 2 3) := by decide

/-- A read as a signed 64-bit integer (R83). -/
theorem test_decode_signed_a :
    decode ⟨0x00000002, 0xFFFFFFFFFFFFFFFB, 1, 1, 1⟩ = .ok (.initc (-5)) ∧
    decode ⟨0x00000021, 0x8000000000000000, 1, 1, 1⟩ = .ok (.setpos (-9223372036854775808)) := by decide

/-- The reserved words V170 to V183. -/
theorem test_decode_reserved :
    [0x00000000, 0x00000005, 0x00000027, 0x00000035, 0x00000014, 0x00000B10, 0x00000F13, 0x00000101, 0x00001020,
      0x00002010, 0x00001012, 0x00004010, 0x80000001, 0x00003110].map (decodeTableWord 32) = List.replicate 14 none := by
  decide

/-! ### One step on the vectors -/

/-- What a test looks at: the words of the store, LEN with the cursor, the answer, and the buffer. -/
structure View where
  words : List Word
  regs : List Nat
  answer : Option Response
  buf : List DWord
deriving DecidableEq, Repr

/-- A state as a test looks at it. -/
def seen (t : State) : View :=
  ⟨(List.range t.wc).map (readWord t.mem), [t.len, t.wi, t.bo], t.answers.getLast?.map Answer.response, t.buf⟩

/-- The state after one step on a command frame, where there is one. -/
def send (cw : Word) (a : DWord) (idx cnt blen : Word) (buf : List DWord) (s : State) : Option State :=
  match step { s with pending := [.command ⟨⟨cw, a, idx, cnt, blen⟩, buf⟩] } with
  | .next t => some t
  | _ => none

/-- A scalar write seen by its effect on the store. -/
def wrote (cw : Word) (a : DWord) (idx cnt : Word) (s : State) : Option View :=
  (send cw a idx cnt 0 [] s).map seen

/-- A read or an accessor seen by its answer and the cursor. -/
def told (cw : Word) (a : DWord) (idx cnt : Word) (s : State) : Option (Option Response × Nat × Bool) :=
  (send cw a idx cnt 0 [] s).map fun t => (t.answers.getLast?.map Answer.response, t.pos, decide (t.mem = s.mem))

/-- An array read seen by the buffer, N and the cursor. -/
def filled (cw : Word) (idx cnt blen : Word) (buf : List DWord) (s : State) : Option (List DWord × Option Response × Nat) :=
  (send cw 0 idx cnt blen buf s).map fun t => (t.buf, t.answers.getLast?.map Answer.response, t.pos)

/-- The answer (OK, v, n). -/
def ok (v n : DWord) : Option Response := some ⟨.ok, v, n⟩

/-- A failing answer. -/
def failed (st : Status) : Option Response := some ⟨st, 0, 0⟩

/-- The five-byte stream of 95_test_vectors.md with the cursor at `p`. -/
def five (p : Nat) : State :=
  { State.reset with mem := [(0, 0xAA), (1, 0xBB), (2, 0xCC), (3, 0xDD), (4, 0xEE)], wc := 2, len := 40, wi := p / 32, bo := p % 32 }

/-- A stream of `len` zero bits in `wc` words with the cursor at `p`, under a MAX_WORDS of `mw`. -/
def zeros (mw wc len p : Nat) : State :=
  { State.reset with maxWords := mw, wc := wc, len := len, wi := p / 32, bo := p % 32 }

/-- The same unit, closed. -/
def closed (s : State) : State := { s with isOpen := false }

/-- V21. -/
theorem test_wr_bool : wrote 0x00000010 1 0 0 State.reset = some ⟨[0x80000000], [1, 0, 1], ok 0 0, []⟩ := by decide
/-- V23: only bit 0 of A counts. -/
theorem test_wr_bool_bit0 : wrote 0x00000010 0xFE 0 0 State.reset = some ⟨[0x00000000], [1, 0, 1], ok 0 0, []⟩ := by decide
/-- V24. -/
theorem test_wr_byte : wrote 0x00001110 0xA5 4 4 State.reset = some ⟨[0xA0000000], [4, 0, 4], ok 0 0, []⟩ := by decide
/-- V25: bit 8 of A is dropped. -/
theorem test_wr_byte_dropped : wrote 0x00000110 0x1FF 0 0 State.reset = some ⟨[0xFF000000], [8, 0, 8], ok 0 0, []⟩ := by decide
/-- V26. -/
theorem test_wr_sbyte : wrote 0x00000210 0xFFFFFFFFFFFFFFFF 0 0 State.reset = some ⟨[0xFF000000], [8, 0, 8], ok 0 0, []⟩ := by decide
/-- V27. -/
theorem test_wr_char : wrote 0x00000310 0x41 0 0 State.reset = some ⟨[0x00410000], [16, 0, 16], ok 0 0, []⟩ := by decide
/-- V28. -/
theorem test_wr_short : wrote 0x00000410 0xFFFFFFFFFFFFFFFE 0 0 State.reset = some ⟨[0xFFFE0000], [16, 0, 16], ok 0 0, []⟩ := by decide
/-- V29: across a word boundary, with growth. -/
theorem test_wr_ushort_splits : wrote 0x00000510 0xBEEF 0 0 (zeros 100 1 28 28) = some ⟨[0x0000000B, 0xEEF00000], [44, 1, 12], ok 0 0, []⟩ := by decide
/-- V31: WI = WC and no growth yet. -/
theorem test_wr_int : wrote 0x00000610 0xFFFFFFFFFFFFFFFF 0 0 State.reset = some ⟨[0xFFFFFFFF], [32, 1, 0], ok 0 0, []⟩ := by decide
/-- V34. -/
theorem test_wr_uint : wrote 0x00001710 0x12345678 8 16 State.reset = some ⟨[0x34560000], [16, 0, 16], ok 0 0, []⟩ := by decide
/-- V35. -/
theorem test_wr_float : wrote 0x00000810 0x3F800000 0 0 State.reset = some ⟨[0x3F800000], [32, 1, 0], ok 0 0, []⟩ := by decide
/-- V37. -/
theorem test_wr_long : wrote 0x00001910 0xFFFFFFFFFFFFFFFE 0 33 State.reset = some ⟨[0xFFFFFFFE, 0x80000000], [33, 1, 1], ok 0 0, []⟩ := by decide
/-- V39. -/
theorem test_wr_ulong_three_words : wrote 0x00000A10 0x0123456789ABCDEF 0 0 (zeros 100 1 20 20) = some ⟨[0x0000089A, 0xBCDEF012, 0x34567000], [84, 2, 20], ok 0 0, []⟩ := by decide
/-- V40: the low half part first. -/
theorem test_wr_ulong_nibbles : wrote 0x00001A10 0x0123456789ABCDEF 28 8 State.reset = some ⟨[0x87000000], [8, 0, 8], ok 0 0, []⟩ := by decide
/-- V44, V45: a field outside the type. -/
theorem test_wr_invalid : wrote 0x00001110 1 4 5 State.reset = some ⟨[0], [0, 0, 0], failed .invalidArgument, []⟩ ∧
    wrote 0x00001110 1 0xFFFFFFFF 1 State.reset = some ⟨[0], [0, 0, 0], failed .invalidArgument, []⟩ := by decide
/-- P5: an overwrite that straddles LEN. -/
theorem test_wr_straddles : wrote 0x00000110 0 0 0 { State.reset with mem := [(0, 0xFF)], len := 8, bo := 4 } =
    some ⟨[0xF0000000], [12, 0, 12], ok 0 0, []⟩ := by decide
/-- R259: with MAX_WORDS = 2 and pos = 60, a bad field comes before a full store. -/
theorem test_wr_exhausted : wrote 0x00000110 1 0 0 (zeros 2 2 60 60) = some ⟨[0, 0], [60, 1, 28], failed .exhausted, []⟩ ∧
    wrote 0x00001110 1 4 5 (zeros 2 2 60 60) = some ⟨[0, 0], [60, 1, 28], failed .invalidArgument, []⟩ := by decide

/-- V50. -/
theorem test_rd_bool : told 0x00000011 0 0 0 (five 0) = some (ok 1 1, 1, true) := by decide
/-- V54. -/
theorem test_rd_byte : told 0x00001111 0 4 4 (five 0) = some (ok 0xA0 4, 4, true) := by decide
/-- V55: no sign extension. -/
theorem test_rd_sbyte : told 0x00000211 0 0 0 (five 32) = some (ok 0xEE 8, 40, true) := by decide
/-- V56. -/
theorem test_rd_char : told 0x00000311 0 0 0 (five 0) = some (ok 0xAABB 16, 16, true) := by decide
/-- V57. -/
theorem test_rd_short : told 0x00000411 0 0 0 (five 16) = some (ok 0xCCDD 16, 32, true) := by decide
/-- V58: across a word boundary. -/
theorem test_rd_ushort : told 0x00000511 0 0 0 (five 24) = some (ok 0xDDEE 16, 40, true) := by decide
/-- V59: a short read. -/
theorem test_rd_ushort_short : told 0x00000511 0 0 0 (five 32) = some (ok 0xEE 8, 40, true) := by decide
/-- V60. -/
theorem test_rd_int : told 0x00000611 0 0 0 (five 0) = some (ok 0xAABBCCDD 32, 32, true) := by decide
/-- V62. -/
theorem test_rd_uint : told 0x00001711 0 8 16 (five 8) = some (ok 0xBBCC00 16, 24, true) := by decide
/-- V46: the soft end of stream. -/
theorem test_rd_uint_end : told 0x00000711 0 0 0 (five 40) = some (ok 0 0, 40, true) := by decide
/-- V63. -/
theorem test_rd_float : told 0x00000811 0 0 0 (five 0) = some (ok 0xAABBCCDD 32, 32, true) := by decide
/-- V68: an empty field. -/
theorem test_rd_long : told 0x00001911 0 0 0 (five 0) = some (ok 0 0, 0, true) := by decide
/-- V65: low half short, high half empty. -/
theorem test_rd_ulong : told 0x00000A11 0 0 0 (five 30) = some (ok 0x1EE 10, 40, true) := by decide
/-- V66. -/
theorem test_rd_ulong_halves : told 0x00001A11 0 28 8 (five 16) = some (ok 0xCC0000000 8, 24, true) := by decide
/-- V69. -/
theorem test_rd_invalid : told 0x00001611 0 0 0xFFFFFFFF (five 0) = some (failed .invalidArgument, 0, true) := by decide
/-- V81. -/
theorem test_getpos : told 0x00000020 0 0 0 (five 40) = some (ok 40 0, 40, true) := by decide
/-- V82. -/
theorem test_setpos : told 0x00000021 40 0 0 (five 0) = some (ok 0 0, 40, true) := by decide
/-- V90: all 64 bits of A count. -/
theorem test_setpos_beyond : told 0x00000021 0x100000000 0 0 (five 3) = some (failed .outOfRange, 3, true) := by decide
/-- V88. -/
theorem test_getlen : told 0x00000022 0 0 0 (five 3) = some (ok 40 0, 3, true) := by decide
/-- T3, LEN 84. -/
theorem test_len8 : told 0x00000023 0 0 0 (zeros 9 3 84 0) = some (ok 11 0, 0, true) := by decide
/-- T3, LEN 84. -/
theorem test_len16 : told 0x00000024 0 0 0 (zeros 9 3 84 0) = some (ok 6 0, 0, true) := by decide
/-- T3, LEN 84. -/
theorem test_len32 : told 0x00000025 0 0 0 (zeros 9 3 84 0) = some (ok 3 0, 0, true) := by decide
/-- T3, LEN 84. -/
theorem test_len64 : told 0x00000026 0 0 0 (zeros 9 3 84 0) = some (ok 2 0, 0, true) := by decide
/-- V160. -/
theorem test_flush : told 0x00000004 0 0 0 (five 3) = some (ok 0 0, 3, true) := by decide
/-- V161. -/
theorem test_flush_closed : told 0x00000004 0 0 0 (closed (five 3)) = some (failed .closedStream, 3, true) := by decide
/-- V162. -/
theorem test_canread : told 0x00000030 0 0 0 (five 3) = some (ok 1 0, 3, true) := by decide
/-- V163. -/
theorem test_canread_closed : told 0x00000030 0 0 0 (closed (five 3)) = some (ok 0 0, 3, true) := by decide
/-- V162. -/
theorem test_canwrite : told 0x00000031 0 0 0 (five 3) = some (ok 1 0, 3, true) := by decide
/-- V163. -/
theorem test_canwrite_closed : told 0x00000031 0 0 0 (closed (five 3)) = some (ok 0 0, 3, true) := by decide
/-- V164. -/
theorem test_canseek : told 0x00000032 0 0 0 (five 3) = some (ok 0 0, 3, true) := by decide
/-- V164. -/
theorem test_cansetlen : told 0x00000033 0 0 0 (five 3) = some (ok 0 0, 3, true) := by decide
/-- V164. -/
theorem test_canflush : told 0x00000034 0 0 0 (five 3) = some (ok 0 0, 3, true) := by decide

/-- V100. -/
theorem test_wra_bool : (send 0x00002012 0 0 4 4 [1, 0, 1, 1] State.reset).map seen =
    some ⟨[0xB0000000], [4, 0, 4], ok 0 0, [1, 0, 1, 1]⟩ := by decide
/-- V102. -/
theorem test_wra_byte : (send 0x00002112 0 1 2 5 [0xAA, 0xBB, 0xCC, 0xDD, 0xEE] State.reset).map seen =
    some ⟨[0xBBCC0000], [16, 0, 16], ok 0 0, [0xAA, 0xBB, 0xCC, 0xDD, 0xEE]⟩ := by decide
/-- V113: an offset past the end, even with count 0. -/
theorem test_wra_byte_invalid : (send 0x00002112 0 3 0 2 [1, 2] State.reset).map seen =
    some ⟨[0x00000000], [0, 0, 0], failed .invalidArgument, [1, 2]⟩ := by decide
/-- V103. -/
theorem test_wra_sbyte : (send 0x00002212 0 0 2 2 [0xFF, 1] State.reset).map seen =
    some ⟨[0xFF010000], [16, 0, 16], ok 0 0, [0xFF, 1]⟩ := by decide
/-- V104. -/
theorem test_wra_char : (send 0x00002312 0 0 2 2 [0x48, 0x69] State.reset).map seen =
    some ⟨[0x00480069], [32, 1, 0], ok 0 0, [0x48, 0x69]⟩ := by decide
/-- V105. -/
theorem test_wra_short : (send 0x00002412 0 0 1 1 [0xFFFE] State.reset).map seen =
    some ⟨[0xFFFE0000], [16, 0, 16], ok 0 0, [0xFFFE]⟩ := by decide
/-- V106. -/
theorem test_wra_ushort : (send 0x00002512 0 0 3 3 [0x1234, 0x5678, 0x9ABC] State.reset).map seen =
    some ⟨[0x12345678, 0x9ABC0000], [48, 1, 16], ok 0 0, [0x1234, 0x5678, 0x9ABC]⟩ := by decide
/-- V107. -/
theorem test_wra_int : (send 0x00002612 0 0 2 2 [0xFFFFFFFF, 0] State.reset).map seen =
    some ⟨[0xFFFFFFFF, 0x00000000], [64, 2, 0], ok 0 0, [0xFFFFFFFF, 0]⟩ := by decide
/-- V108. -/
theorem test_wra_uint : (send 0x00002712 0 0 1 1 [0xDEADBEEF] (zeros 9 1 4 4)).map seen =
    some ⟨[0x0DEADBEE, 0xF0000000], [36, 1, 4], ok 0 0, [0xDEADBEEF]⟩ := by decide
/-- V109. -/
theorem test_wra_float : (send 0x00002812 0 0 2 2 [0x3F800000, 0xC0000000] State.reset).map seen =
    some ⟨[0x3F800000, 0xC0000000], [64, 2, 0], ok 0 0, [0x3F800000, 0xC0000000]⟩ := by decide
/-- V110. -/
theorem test_wra_long : (send 0x00002912 0 0 1 1 [0xFFFFFFFFFFFFFFFE] State.reset).map seen =
    some ⟨[0xFFFFFFFE, 0xFFFFFFFF], [64, 2, 0], ok 0 0, [0xFFFFFFFFFFFFFFFE]⟩ := by decide
/-- V111. -/
theorem test_wra_ulong : (send 0x00002A12 0 0 2 2 [0x0011223344556677, 0x8899AABBCCDDEEFF] State.reset).map seen =
    some ⟨[0x44556677, 0x00112233, 0xCCDDEEFF, 0x8899AABB], [128, 4, 0], ok 0 0, [0x0011223344556677, 0x8899AABBCCDDEEFF]⟩ := by decide
/-- V118: the missing buffer comes before the numbers. -/
theorem test_wra_null : (send 0x00000112 0 0xFFFFFFFF 0xFFFFFFFF 0 [] State.reset).map seen =
    some ⟨[0x00000000], [0, 0, 0], failed .nullArgument, []⟩ := by decide

/-- V130. -/
theorem test_rda_bool : filled 0x00002013 0 4 4 [0, 1, 0, 1] (five 0) =
    some ([1, 0, 1, 0], ok 0 4, 4) := by decide
/-- V131. -/
theorem test_rda_byte : filled 0x00002113 2 6 8 [0x55, 0x55, 0x55, 0x55, 0x55, 0x55, 0x55, 0x55] (five 0) =
    some ([0x55, 0x55, 0xAA, 0xBB, 0xCC, 0xDD, 0xEE, 0x55], ok 0 40, 40) := by decide
/-- V132. -/
theorem test_rda_sbyte : filled 0x00002213 0 2 2 [0x55, 0x55] (five 32) =
    some ([0xEE, 0x55], ok 0 8, 40) := by decide
/-- V133. -/
theorem test_rda_char : filled 0x00002313 0 2 2 [0x5555, 0x5555] (five 0) =
    some ([0xAABB, 0xCCDD], ok 0 32, 32) := by decide
/-- V134. -/
theorem test_rda_short : filled 0x00002413 0 1 1 [0x5555] (five 8) =
    some ([0xBBCC], ok 0 16, 24) := by decide
/-- V135: a short last element. -/
theorem test_rda_ushort : filled 0x00002513 0 4 4 [0x5555, 0x5555, 0x5555, 0x5555] (five 0) =
    some ([0xAABB, 0xCCDD, 0x00EE, 0x5555], ok 0 40, 40) := by decide
/-- V136. -/
theorem test_rda_int : filled 0x00002613 0 1 1 [0x55555555] (five 0) =
    some ([0xAABBCCDD], ok 0 32, 32) := by decide
/-- V137. -/
theorem test_rda_uint : filled 0x00002713 0 2 2 [0x55555555, 0x55555555] (five 0) =
    some ([0xAABBCCDD, 0xEE], ok 0 40, 40) := by decide
/-- 2.4: two float patterns. -/
theorem test_rda_float : filled 0x00002813 0 2 2 [0, 0] { State.reset with mem := [(0, 0x3F), (1, 0x80), (4, 0xC0)], wc := 2, len := 64 } =
    some ([0x3F800000, 0xC0000000], ok 0 64, 64) := by decide
/-- 2.4: one long pattern. -/
theorem test_rda_long : filled 0x00002913 0 1 1 [0] { five 0 with len := 64, mem := [(0, 0xFF), (1, 0xFF), (2, 0xFF), (3, 0xFE), (4, 0xFF), (5, 0xFF), (6, 0xFF), (7, 0xFF)] } =
    some ([0xFFFFFFFFFFFFFFFE], ok 0 64, 64) := by decide
/-- V138. -/
theorem test_rda_ulong : filled 0x00002A13 0 2 2 [0x5555555555555555, 0x5555555555555555] (five 0) =
    some ([0x000000EEAABBCCDD, 0x5555555555555555], ok 0 40, 40) := by decide
/-- V139: nothing is stored at the end of the stream. -/
theorem test_rda_byte_end : filled 0x00002113 0 2 2 [0x55, 0x55] (five 40) =
    some ([0x55, 0x55], ok 0 0, 40) := by decide
/-- V141. -/
theorem test_rda_null : filled 0x00000613 0 1 0 [] (five 0) =
    some ([], failed .nullArgument, 0) := by decide
/-- V143. -/
theorem test_rda_int_invalid : filled 0x00002613 0 2 1 [0x55555555] (five 0) =
    some ([0x55555555], failed .invalidArgument, 0) := by decide

/-- V150: INIT on a closed unit. -/
theorem test_init : (send 0x00000001 0 0 0 0 [] (closed (five 3))).map (fun t => (seen t, t.isOpen)) =
    some (⟨[0], [0, 0, 0], ok 0 0, []⟩, true) := by decide
/-- V153. -/
theorem test_initc : wrote 0x00000002 33 0 0 (five 3) = some ⟨[0, 0], [0, 0, 0], ok 0 0, []⟩ := by decide
/-- V157: with MAX_WORDS = 2, on a closed unit, which stays closed. -/
theorem test_initc_exhausted : (send 0x00000002 65 0 0 0 [] (closed (zeros 2 1 8 3))).map (fun t => (seen t, t.isOpen)) =
    some (⟨[0], [8, 0, 3], failed .exhausted, []⟩, false) := by decide
/-- V158. -/
theorem test_close : (send 0x00000003 0 0 0 0 [] (five 3)).map (fun t => (seen t, t.isOpen)) =
    some (⟨[0xAABBCCDD, 0xEE000000], [40, 0, 3], ok 0 0, []⟩, false) := by decide
/-- R259: on a closed unit a reserved word answers IllegalCommand, a legal one ClosedStream. -/
theorem test_priority_closed : told 0x00000B10 0 0 0 (closed (five 3)) = some (failed .illegalCommand, 3, true) ∧
    told 0x00000112 0 0xFFFFFFFF 0xFFFFFFFF (closed (five 3)) = some (failed .closedStream, 3, true) := by decide
/-- 2.8: the fields a command does not use are ignored. -/
theorem test_unused_fields : wrote 0x00000110 0xFFFFFFFFFFFFFFAA 0xFFFFFFFF 0x12345678 State.reset =
    some ⟨[0xAA000000], [8, 0, 8], ok 0 0, []⟩ := by decide

/-! ### Witnesses: for each statement with hypotheses, a state and operands that meet them -/

/-- The five-byte stream has the invariants, wherever the cursor stands. -/
theorem five_inv {p : Nat} (hp : p ≤ 40) : UnitInv (five p) where
  maxWords_pos := by simp only [five]; decide
  maxWords_le := by simp only [five]; decide
  wc_pos := by simp only [five]; decide
  wc_le := by simp only [five]; decide
  len_le_capacity := by simp only [five]; decide
  pos_le_len := by simp only [five, State.pos]; omega
  bo_lt := by simp only [five]; omega
  zero_beyond q hq := by
    rw [bitAt_eq_byte]
    simp only [five] at hq ⊢
    simp only [readByte]
    rw [if_neg (by omega), if_neg (by omega), if_neg (by omega), if_neg (by omega), if_neg (by omega)]
    simp
  len_le_maxBits := by simp only [five, maxBits_eq]; decide
  mem_wf := by simp only [five]; decide

/-- A stream of zeros has the invariants, within its bounds. -/
theorem zeros_inv {mw wc len p : Nat} (h₁ : 1 ≤ wc) (h₂ : wc ≤ mw) (h₃ : mw ≤ Config.maxWordsBound) (h₄ : len ≤ 32 * wc)
    (h₅ : p ≤ len) : UnitInv (zeros mw wc len p) where
  maxWords_pos := by simp only [zeros]; omega
  maxWords_le := by simpa only [zeros] using h₃
  wc_pos := by simpa only [zeros] using h₁
  wc_le := by simpa only [zeros] using h₂
  len_le_capacity := by simpa only [zeros] using h₄
  pos_le_len := by simp only [zeros, State.pos]; omega
  bo_lt := by simp only [zeros]; omega
  zero_beyond q _ := bitAt_nil q
  len_le_maxBits := by simp only [zeros, maxBits_eq]; omega
  mem_wf := rfl

/-- Two words, both full, under a MAX_WORDS of 2, with the cursor at `p`. -/
theorem full_inv {p : Nat} (hp : p ≤ 64) : UnitInv (zeros 2 2 64 p) :=
  zeros_inv (by decide) (by decide) (by decide) (by decide) hp

/-- A state about to take one command. -/
def facing (cw : Word) (a : DWord) (s : State) : State :=
  { s with pending := [.command ⟨⟨cw, a, 0, 0, 0⟩, []⟩] }

/-- The same state for the invariants. -/
theorem facing_inv {cw : Word} {a : DWord} {s : State} (h : UnitInv s) : UnitInv (facing cw a s) where
  maxWords_pos := h.maxWords_pos
  maxWords_le := h.maxWords_le
  wc_pos := h.wc_pos
  wc_le := h.wc_le
  len_le_capacity := h.len_le_capacity
  pos_le_len := h.pos_le_len
  bo_lt := h.bo_lt
  zero_beyond := h.zero_beyond
  len_le_maxBits := h.len_le_maxBits
  mem_wf := h.mem_wf

theorem witness_DecodeInvertsEncode :
    (Instr.wrByte 5 (.field (-(2 ^ 31)) (2 ^ 31 - 1))).wellFormed = true ∧
    (Instr.rdaUlong (.present (2 ^ 32 - 1)) (2 ^ 31 - 1) (-(2 ^ 31))).wellFormed = true ∧
    (Instr.initc (-(2 ^ 63))).wellFormed = true ∧ (Instr.setpos (2 ^ 63 - 1)).wellFormed = true := by decide

theorem witness_DecodedInstructionIsWellFormed :
    decode ⟨0x00001110, 5, 0x80000000, 0x7FFFFFFF, 0⟩ = .ok (.wrByte 5 (.field (-(2 ^ 31)) (2 ^ 31 - 1))) := by decide

theorem witness_MatchAndMaskSelect :
    decode ⟨0x00001110, 5, 1, 2, 0⟩ = .ok (.wrByte 5 (.field 1 2)) ∧
    (0x00001110 : Word) &&& rowMask (.wrByte 0 .whole) = rowMatch (.wrByte 0 .whole) ∧
    decode ⟨0x00003110, 5, 1, 2, 0⟩ = .error .bufNotZero := by decide

theorem witness_DecodeLooksAtControlWordOnly :
    (⟨0x00001110, 5, 1, 2, 0⟩ : Frame).cw = (⟨0x00001110, 6, 7, 8, 9⟩ : Frame).cw := rfl

theorem witness_UnusedFieldsAreIgnored :
    usesA 0x00000110 = true ∧ usesIndexCount 0x00000110 = false ∧ usesBufLen 0x00000110 = false ∧
    usesA 0x00002113 = false ∧ usesIndexCount 0x00002113 = true ∧ usesBufLen 0x00002113 = true ∧
    usesIndexCount 0x00001111 = true ∧ usesBufLen 0x00000113 = false := by decide

theorem witness_StepRunsDecodedInstruction :
    (facing 0x00000110 0xAA (five 3)).pending = .command ⟨⟨0x00000110, 0xAA, 0, 0, 0⟩, []⟩ :: [] ∧
    decode ⟨0x00000110, 0xAA, 0, 0, 0⟩ = .ok (.wrByte 0xAA .whole) := by decide

theorem witness_PresentedTableWordRuns : decodeTableWord 32 0x00000110 = some (.wrByte 0 .whole) := by decide

/-- One word for each clause of R88. -/
theorem witness_ReservedWordAnswersIllegalCommand :
    (facing 0x80000001 0 (closed (five 3))).pending = .command ⟨⟨0x80000001, 0, 0, 0, 0⟩, []⟩ :: [] ∧
    ReservedWord 0x80000001 ∧ ReservedWord 0x00004010 ∧ ReservedWord 0x00000000 ∧ ReservedWord 0x00000B10 ∧
    ReservedWord 0x00000101 ∧ ReservedWord 0x00001020 ∧ ReservedWord 0x00002010 :=
  ⟨rfl, by decide, by decide, by decide, by decide, by decide, by decide, by decide⟩

theorem witness_ReservedWordsAreExactlyTheRejected : ¬ ReservedWord 0x00000A10 ∧ ¬ ReservedWord 0x00002A13 := by decide

theorem witness_HardwareResetBetweenCommands :
    ({ closed (five 3) with pending := [.reset] }).pending = HostEvent.reset :: [] := rfl

theorem witness_StepWaitsForTheHost : (five 3).pending = [] := rfl

theorem witness_OneEventOneAnswer :
    (∃ t, step (facing 0x00000110 0xAA (five 3)) = .next t) ∧
    (∃ t, step { five 3 with pending := [.reset] } = .next t) ∧ ∃ t, step (five 3) = .next t :=
  ⟨⟨_, rfl⟩, ⟨_, rfl⟩, ⟨_, rfl⟩⟩

theorem witness_EveryStepKeepsInvariants :
    (UnitInv (facing 0x00000710 0xAA (five 40)) ∧ ∃ t, step (facing 0x00000710 0xAA (five 40)) = .next t) ∧
    (UnitInv (facing 0x00000710 0xAA (zeros 2 2 64 64)) ∧
      step (facing 0x00000710 0xAA (zeros 2 2 64 64)) = .next (raise .exhausted (zeros 2 2 64 64))) :=
  ⟨⟨facing_inv (five_inv (by decide)), _, rfl⟩, facing_inv (full_inv (by decide)), rfl⟩

theorem witness_EveryRunGoesOn : UnitInv (facing 0x00000A11 0 (five 30)) := facing_inv (five_inv (by decide))

/-- A success of a kind that answers V and N, one of a kind that answers neither, and a failure. -/
theorem witness_ResponseFrame :
    (∃ t, exec (.rdByte .whole) (five 3) = .next t) ∧ kindOf (.rdByte .whole) = .read ∧
    (∃ t, exec .close (five 3) = .next t) ∧ kindOf .close = .close ∧
    (∃ t, exec (.setpos 41) (five 3) = .next t ∧ t.answers = (five 3).answers ++ [⟨⟨.outOfRange, 0, 0⟩, t.buf⟩]) :=
  ⟨⟨_, rfl⟩, rfl, ⟨_, rfl⟩, rfl, _, rfl, rfl⟩

theorem witness_FailureChangesNothing :
    (∃ t, exec (.wraByte .null 0 0) (five 3) = .next t ∧
      t.answers = (five 3).answers ++ [⟨⟨.nullArgument, 0, 0⟩, t.buf⟩]) ∧ Status.nullArgument ≠ .ok :=
  ⟨⟨_, rfl, rfl⟩, by decide⟩

/-- One command for each clause. -/
theorem witness_ClosedStreamExactlyWhenClosed :
    (closed (five 3)).isOpen = false ∧ needsOpen (.rdByte .whole) = true ∧ needsOpen (.initc 1) = false ∧
    needsOpen .canread = false ∧ (five 3).isOpen = true ∧
    ∃ t, exec .flush (five 3) = .next t ∧ t.answers = (five 3).answers ++ [⟨⟨.ok, 0, 0⟩, t.buf⟩] :=
  ⟨rfl, by decide, by decide, by decide, rfl, _, rfl, rfl⟩

theorem witness_FailuresAreThoseOfTheTable :
    (∃ t, exec (.wrByte 1 (.field 4 5)) (five 3) = .next t ∧
      t.answers = (five 3).answers ++ [⟨⟨.invalidArgument, 0, 0⟩, t.buf⟩]) ∧
    mayRaise (.wrByte 1 (.field 4 5)) = [.closedStream, .invalidArgument, .exhausted] ∧
    mayRaise (.wrByte 1 .whole) = [.closedStream, .exhausted] ∧ mayRaise (.rdUlong .whole) = [.closedStream] :=
  ⟨⟨_, rfl, rfl⟩, by decide, by decide, by decide⟩

/-- A command for each clause: none of its lists, three of them, all but the last. -/
theorem witness_FrameByKind :
    (∃ t, exec (.setpos 40) (five 3) = .next t) ∧ ¬ kindOf (.setpos 40) ∈ [Kind.write, .arrayWrite, .init, .initCapacity] ∧
    (∃ t, exec .close (five 3) = .next t) ∧
      ¬ kindOf .close ∈ [Kind.write, .read, .arrayWrite, .arrayRead, .setPosition, .init, .initCapacity] ∧
    (∃ t, exec (.wrByte 1 .whole) (five 3) = .next t) ∧ ¬ kindOf (.wrByte 1 .whole) ∈ [Kind.close, .init, .initCapacity] ∧
    kindOf (.wrByte 1 .whole) ≠ .arrayRead :=
  ⟨⟨_, rfl⟩, by decide, ⟨_, rfl⟩, by decide, ⟨_, rfl⟩, by decide, by decide⟩

theorem witness_StreamNeverShrinks :
    kindOf (.wrByte 1 .whole) ≠ .init ∧ kindOf (.wrByte 1 .whole) ≠ .initCapacity ∧
    ∃ t, exec (.wrByte 1 .whole) (five 40) = .next t :=
  ⟨by decide, by decide, _, rfl⟩

theorem witness_CapacityIsUnobservable :
    UnitInv (facing 0x00000A10 5 (zeros 9 2 64 64)) ∧ UnitInv { facing 0x00000A10 5 (zeros 9 2 64 64) with wc := 7 } ∧
    ∃ t, step (facing 0x00000A10 5 (zeros 9 2 64 64)) = .next t :=
  ⟨facing_inv (zeros_inv (by decide) (by decide) (by decide) (by decide) (by decide)),
    facing_inv (zeros_inv (mw := 9) (wc := 7) (by decide) (by decide) (by decide) (by decide) (by decide)), _, rfl⟩

/-- The last byte that fits; a field over both halves; an empty field at the end of the type. -/
theorem witness_ScalarWriteStoresField :
    UnitInv (zeros 2 2 64 56) ∧ (zeros 2 2 64 56).isOpen = true ∧ FieldOk .byte .whole ∧
    (zeros 2 2 64 56).pos + fieldBits .byte .whole ≤ 32 * (zeros 2 2 64 56).maxWords ∧
    FieldOk .ulong (.field 28 8) ∧ (zeros 2 2 64 56).pos + fieldBits .ulong (.field 28 8) ≤ 32 * (zeros 2 2 64 56).maxWords ∧
    FieldOk .byte (.field 8 0) :=
  ⟨full_inv (by decide), by decide⟩

/-- Closed; a bit index below 0 and a count one too large; one bit more than fits. -/
theorem witness_ScalarWriteFailures :
    (closed (zeros 2 2 64 57)).isOpen = false ∧ (zeros 2 2 64 57).isOpen = true ∧ ¬ FieldOk .byte (.field (-1) 1) ∧
    ¬ FieldOk .byte (.field 4 5) ∧ FieldOk .byte .whole ∧
    32 * (zeros 2 2 64 57).maxWords < (zeros 2 2 64 57).pos + fieldBits .byte .whole := by decide

theorem witness_EmptyFieldChangesNothing :
    (five 40).isOpen = true ∧ FieldOk .byte (.field 8 0) ∧ fieldBits .byte (.field 8 0) = 0 ∧
    (five 40).pos ≤ 32 * (five 40).maxWords := by decide

theorem witness_BitsOutsideTheFieldAreDropped :
    UnitInv (five 3) ∧ ∀ j, fieldStart (.field 4 4) ≤ j → j < fieldStart (.field 4 4) + fieldBits .byte (.field 4 4) →
      (0xFA5 : DWord).getLsbD j = (0x0AF : DWord).getLsbD j :=
  ⟨five_inv (by decide), fun j h₁ h₂ => by
    obtain ⟨k, rfl, hk⟩ : ∃ k, j = 4 + k ∧ k < 4 :=
      ⟨j - 4, by change 4 ≤ j at h₁; omega, by change 4 ≤ j at h₁; change j < 8 at h₂; omega⟩
    clear h₁ h₂
    revert hk
    revert k
    decide⟩

theorem witness_TypesOfOneWidthBehaveAlike :
    width .byte = width .sbyte ∧ width .char = width .ushort ∧ width .int = width .float ∧ width .long = width .ulong := by
  decide

theorem witness_ByteLandsAtItsStreamByte :
    UnitInv (zeros 2 2 64 56) ∧ (zeros 2 2 64 56).isOpen = true ∧ (zeros 2 2 64 56).pos % 8 = 0 ∧
    (zeros 2 2 64 56).pos + 8 ≤ 32 * (zeros 2 2 64 56).maxWords :=
  ⟨full_inv (by decide), by decide⟩

theorem witness_UlongLiesLowHalfFirst :
    UnitInv (zeros 2 2 64 0) ∧ (zeros 2 2 64 0).isOpen = true ∧ (zeros 2 2 64 0).pos % 32 = 0 ∧
    (zeros 2 2 64 0).pos + 64 ≤ 32 * (zeros 2 2 64 0).maxWords :=
  ⟨full_inv (by decide), by decide⟩

theorem witness_ScalarReadReturnsField :
    UnitInv (five 30) ∧ (five 30).isOpen = true ∧ FieldOk .ulong .whole ∧ FieldOk .ulong (.field 64 0) :=
  ⟨five_inv (by decide), by decide⟩

theorem witness_ScalarReadFailures :
    (closed (five 3)).isOpen = false ∧ (five 3).isOpen = true ∧ ¬ FieldOk .ulong (.field 64 1) ∧
    ¬ FieldOk .int (.field 0 (-1)) := by decide

theorem witness_SoftEndOfStream :
    (five 40).isOpen = true ∧ (five 40).len ≤ (five 40).pos ∧ FieldOk .uint .whole ∧ ArrayOk 2 0 2 := by decide

/-- A store that differs beyond WC, under a read that goes up to the last allocated word. -/
theorem witness_ReadsAccessAllocatedWordsOnly :
    UnitInv (five 30) ∧ (∀ i, i < (five 30).wc → readWord ((five 30).mem ++ [(8, 0x77)]) i = readWord (five 30).mem i) ∧
    readWord ((five 30).mem ++ [(8, 0x77)]) 2 ≠ readWord (five 30).mem 2 :=
  ⟨five_inv (by decide), by decide, by decide⟩

theorem witness_WriteThenReadReturnsTheField :
    UnitInv (five 28) ∧ (five 28).isOpen = true ∧ FieldOk .ulong (.field 28 8) ∧
    (five 28).pos + fieldBits .ulong (.field 28 8) ≤ 32 * (five 28).maxWords :=
  ⟨five_inv (by decide), by decide⟩

/-- The last two elements that fit; no elements at the end of the buffer. -/
theorem witness_ArrayWriteStoresElements :
    UnitInv (zeros 2 2 64 48) ∧ (zeros 2 2 64 48).isOpen = true ∧ ArrayOk 3 1 2 ∧
    (zeros 2 2 64 48).pos + (2 : Int).toNat * width .byte ≤ 32 * (zeros 2 2 64 48).maxWords ∧ ArrayOk 3 3 0 :=
  ⟨full_inv (by decide), by decide⟩

/-- Closed; one element too many, an offset past the end, a negative count; one bit more than fits. -/
theorem witness_ArrayWriteFailures :
    (closed (zeros 2 2 64 49)).isOpen = false ∧ (zeros 2 2 64 49).isOpen = true ∧ ¬ ArrayOk 3 1 3 ∧ ¬ ArrayOk 3 4 0 ∧
    ¬ ArrayOk 3 0 (-1) ∧ ArrayOk 3 1 2 ∧
    32 * (zeros 2 2 64 49).maxWords < (zeros 2 2 64 49).pos + (2 : Int).toNat * width .byte := by decide

theorem witness_ArrayReadStoresElements :
    UnitInv (five 3) ∧ (five 3).isOpen = true ∧ ArrayOk 4 0 4 ∧ ArrayOk 4 4 0 :=
  ⟨five_inv (by decide), by decide⟩

theorem witness_ArrayReadFailures :
    (closed (five 3)).isOpen = false ∧ (five 3).isOpen = true ∧ ¬ ArrayOk 1 (-1) 1 ∧ ¬ ArrayOk 1 0 2 := by decide

theorem witness_ArrayWriteThenReadReturnsTheElements :
    UnitInv (five 3) ∧ (five 3).isOpen = true ∧ ArrayOk 2 0 2 ∧
    (five 3).pos + (2 : Int).toNat * width .ulong ≤ 32 * (five 3).maxWords :=
  ⟨five_inv (by decide), by decide⟩

theorem witness_PositionAndLengthAnswers : (five 3).isOpen = true ∧ (closed (five 3)).isOpen = false := by decide

theorem witness_DerivedLengthsAreCeilings : (five 3).isOpen = true ∧ State.reset.isOpen = true := by decide

/-- Both ends of the range. -/
theorem witness_SetPositionMovesTheCursor :
    (five 3).isOpen = true ∧ (0 : Int) ≤ 40 ∧ (40 : Int) ≤ (five 3).len ∧ (0 : Int) ≤ State.reset.len := by decide

/-- Just outside both ends of the range. -/
theorem witness_SetPositionOutOfRange :
    (five 3).isOpen = true ∧ ((-1 : Int) < 0 ∨ (-1 : Int) > (five 3).len) ∧ ((41 : Int) < 0 ∨ (41 : Int) > (five 3).len) ∧
    ∃ t, exec (.setpos 41) (five 3) = .next t ∧ t.answers = (five 3).answers ++ [⟨⟨.outOfRange, 0, 0⟩, t.buf⟩] :=
  ⟨rfl, by decide, by decide, _, rfl, rfl⟩

/-- The boundary capacities of each clause under a MAX_WORDS of 2: 0; 65; 1 and 64. -/
theorem witness_InitcCreatesTheCapacity :
    (0 : Int) ≤ 0 ∧ (0 : Int) < 65 ∧ (zeros 2 1 0 0).maxWords < ((65 : Int).toNat + 31) / 32 ∧
    (0 : Int) < 1 ∧ ((1 : Int).toNat + 31) / 32 ≤ (zeros 2 1 0 0).maxWords ∧
    (0 : Int) < 64 ∧ ((64 : Int).toNat + 31) / 32 ≤ (zeros 2 1 0 0).maxWords := by decide

theorem witness_FlushIsANoOp : (five 3).isOpen = true ∧ (closed (five 3)).isOpen = false := by decide

end Sys2Proof.Tests
end

section
/-! SUPPORT. What one step does for each event the host can present (spec/00_scope.md R11), said once, and the statements
of the family 00_scope.md that follow from it. -/

namespace Sys2Proof.Machine

/-! ### The step, event by event -/

theorem step_of_pending_nil {s : State} (h : s.pending = []) : step s = .next s := by
  simp [step, h]

theorem step_of_pending_reset {s : State} {rest : List HostEvent} (h : s.pending = .reset :: rest) :
    step s = .next (hardReset { s with pending := rest }) := by
  simp [step, h]

theorem step_of_decode_ok {s : State} {c : Command} {rest : List HostEvent} {i : Instr}
    (h : s.pending = .command c :: rest) (hd : decode c.frame = .ok i) : step s = exec i (present c rest s) := by
  simp [step, h, hd]

theorem step_of_decode_error {s : State} {c : Command} {rest : List HostEvent} {e : Reserved}
    (h : s.pending = .command c :: rest) (hd : decode c.frame = .error e) :
    step s = .next (raise .illegalCommand (present c rest s)) := by
  simp [step, h, hd]

/-- The four things a step that answers a next state can have done. -/
inductive StepCases (s : State) : State → Prop
  | waited (h : s.pending = []) : StepCases s s
  | reset (rest : List HostEvent) (h : s.pending = .reset :: rest) : StepCases s (hardReset { s with pending := rest })
  | rejected (c : Command) (rest : List HostEvent) (e : Reserved) (h : s.pending = .command c :: rest)
      (hd : decode c.frame = .error e) : StepCases s (raise .illegalCommand (present c rest s))
  | executed (c : Command) (rest : List HostEvent) (i : Instr) (t : State) (h : s.pending = .command c :: rest)
      (hd : decode c.frame = .ok i) (he : exec i (present c rest s) = .next t) : StepCases s t

/-- What a step has done, by the event it took and what the control word decoded to. -/
theorem step_cases {s t : State} (hs : step s = .next t) : StepCases s t := by
  match h : s.pending with
  | [] =>
    cases (step_of_pending_nil h).symm.trans hs
    exact .waited h
  | .reset :: rest =>
    cases (step_of_pending_reset h).symm.trans hs
    exact .reset rest h
  | .command c :: rest =>
    match hd : decode c.frame with
    | .ok i => exact .executed c rest i t h hd ((step_of_decode_ok h hd).symm.trans hs)
    | .error e =>
      cases (step_of_decode_error h hd).symm.trans hs
      exact .rejected c rest e h hd

/-! ### One answer to a command -/

/-- From `s` to `t` the host has been given one more answer, with the operand buffer as it stands in `t`. -/
def AnsweredOnce (s t : State) : Prop := ∃ r : Response, t.answers = s.answers ++ [⟨r, t.buf⟩]

theorem answeredOnce_raise (st : Status) (s : State) : AnsweredOnce s (raise st s) := ⟨⟨st, 0, 0⟩, rfl⟩

theorem answeredOnce_respond {s u : State} (h : u.answers = s.answers) (v : DWord) (n : Nat) :
    AnsweredOnce s (respond v n u) :=
  ⟨⟨.ok, v, BitVec.ofNat 64 n⟩, by rw [respond_answers, respond_buf, h]⟩

theorem answeredOnce_present_iff {c : Command} {rest : List HostEvent} {s t : State} :
    AnsweredOnce (present c rest s) t ↔ AnsweredOnce s t := Iff.rfl

theorem exec_answeredOnce {i : Instr} {s t : State} (h : exec i s = .next t) : AnsweredOnce s t := by
  cases exec_cases h with
  | failed st _ => exact answeredOnce_raise st s
  | done v n u hu => exact answeredOnce_respond hu.answers v n

theorem exec_pending {i : Instr} {s t : State} (h : exec i s = .next t) : t.pending = s.pending := by
  cases exec_cases h with
  | failed st _ => rfl
  | done v n u hu => exact hu.pending

theorem step_pending {s t : State} (hs : step s = .next t) : t.pending = s.pending.tail := by
  cases step_cases hs with
  | waited h => rw [h, List.tail_nil]
  | reset rest h => rw [h, List.tail_cons, hardReset_pending]
  | rejected c rest e h _ => rw [h, List.tail_cons, raise_pending, present_pending]
  | executed c rest i t h _ he => rw [h, List.tail_cons, exec_pending he, present_pending]

theorem step_answeredOnce_of_command {s t : State} {c : Command} {rest : List HostEvent} (hs : step s = .next t)
    (h : s.pending = .command c :: rest) : AnsweredOnce s t := by
  cases step_cases hs with
  | waited h' | reset rest' h' => exact absurd (h.symm.trans h') (by simp)
  | rejected c' rest' => exact answeredOnce_present_iff.mp (answeredOnce_raise .illegalCommand _)
  | executed c' rest' i t h' _ he => exact answeredOnce_present_iff.mp (exec_answeredOnce he)

/-- Settles O13: a step's answer is that of `raise` or of `exec`, each of which gives one. -/
theorem oneEventOneAnswer : Obligations.OneEventOneAnswer := by
  intro s t hs
  refine ⟨step_pending hs, fun c rest h => step_answeredOnce_of_command hs h, fun rest h => ?_⟩
  cases (step_of_pending_reset h).symm.trans hs
  exact hardReset_answers _

/-! ### The event a step takes -/

/-- Settles O8: the command taken leaves `present c rest s`, which is the state the statement writes out. -/
theorem stepRunsDecodedInstruction : Obligations.StepRunsDecodedInstruction :=
  fun _ _ _ _ h hd => step_of_decode_ok h hd

theorem decodeTableWord_eq_some_iff {nbits w : Nat} {i : Instr} :
    decodeTableWord nbits w = some i ↔ decode (Frame.ofTableWord nbits w) = .ok i := by
  cases hd : decode (Frame.ofTableWord nbits w) <;> simp [decodeTableWord, hd]

@[simp] theorem withFetchWord_pending (s : State) (nbits w : Nat) :
    (s.withFetchWord nbits w).pending = .command ⟨Frame.ofTableWord nbits w, []⟩ :: s.pending := rfl

/-- Taking the presented frame leaves what was pending before, and its buffer of zeros (log entry 2). -/
theorem present_withFetchWord (s : State) (nbits w : Nat) :
    present ⟨Frame.ofTableWord nbits w, []⟩ s.pending (s.withFetchWord nbits w) = { s with buf := [] } := rfl

/-- Settles O9: the presented frame is the next command, and it decodes to the instruction of the table word. -/
theorem presentedTableWordRuns : Obligations.PresentedTableWordRuns := by
  intro s nbits w i hi
  have hd : decode (Frame.ofTableWord nbits w) = .ok i := decodeTableWord_eq_some_iff.mp hi
  rw [step_of_decode_ok (withFetchWord_pending s nbits w) hd, present_withFetchWord]

/-- Settles O12, by the step's equation for an empty list of events. -/
theorem stepWaitsForTheHost : Obligations.StepWaitsForTheHost :=
  fun _ h => step_of_pending_nil h

end Sys2Proof.Machine
end

section
/-! SUPPORT. What keeps the invariants of spec/10_state.md R27, and why the capacity WC has no part in what the unit
answers (R34(a)); with them the statements of the family 10_state.md. -/

namespace Sys2Proof.Machine

/-! ### Words and tables -/

@[simp] theorem readWord_nil (i : Nat) : readWord [] i = 0 := by
  simp [readWord, readByte]

/-- An entry of the mask table is a number of 32 bits, so nothing of `2^n - 1` is cut off (10_state.md R29). -/
theorem mask_toNat {n : Nat} (h : n ≤ 32) : (mask n).toNat = 2 ^ n - 1 := by
  have hpow : 2 ^ n ≤ 2 ^ 32 := Nat.pow_le_pow_right (by decide) h
  rw [mask, BitVec.toNat_ofNat, Nat.mod_eq_of_lt (by omega)]

/-- Rounding up gives at least one unit to anything above nothing (44_position_length.md R213). -/
theorem roundUp_pos {n : Nat} (h : 0 < n) (shift : Nat) : 0 < roundUp n shift := by
  rw [roundUp, Nat.shiftRight_eq_div_pow, Nat.and_two_pow_sub_one_eq_mod]
  split
  · exact Nat.succ_pos _
  next hdvd =>
    exact Nat.div_pos (Nat.le_of_dvd h (Nat.dvd_of_mod_eq_zero (not_not.mp hdvd))) (Nat.two_pow_pos shift)

theorem capWords_pos {cap : Int} (h : 0 < cap) : 0 < capWords cap :=
  roundUp_pos (by omega) 5

/-- What `ValidateField` lets pass lies in the type, as natural numbers (40_bitfield_primitives.md R127). -/
theorem toNat_add_toNat_le_of_valid {w : Nat} {b c : Int} (h : ¬ FieldInvalid w b c) : b.toNat + c.toNat ≤ w := by
  simp only [FieldInvalid, not_or] at h
  omega

/-! ### What keeps the invariants -/

/-- OPEN and what the host holds are no part of the invariants. -/
theorem UnitInv.congr {s t : State} (hs : UnitInv s) (hmem : t.mem = s.mem) (hwc : t.wc = s.wc) (hlen : t.len = s.len)
    (hwi : t.wi = s.wi) (hbo : t.bo = s.bo) (hmax : t.maxWords = s.maxWords) : UnitInv t := by
  obtain ⟨_, _, _, _, _, _, _, _, _, _⟩ := t
  subst hmem hwc hlen hwi hbo hmax
  exact { hs with }

theorem UnitInv.deliver {s : State} (hs : UnitInv s) (r : Response) : UnitInv (deliver r s) :=
  hs.congr rfl rfl rfl rfl rfl rfl

theorem UnitInv.respond {s : State} (hs : UnitInv s) (v : DWord) (n : Nat) : UnitInv (respond v n s) := hs.deliver _

theorem UnitInv.raise {s : State} (hs : UnitInv s) (st : Status) : UnitInv (raise st s) := hs.deliver _

theorem UnitInv.present {s : State} (hs : UnitInv s) (c : Command) (rest : List HostEvent) : UnitInv (present c rest s) :=
  hs.congr rfl rfl rfl rfl rfl rfl

/-- A fresh stream has the invariants, whatever stood there before (10_state.md R37). -/
theorem unitInv_create {s : State} {n : Nat} (hpos : 1 ≤ n) (hle : n ≤ s.maxWords)
    (hmax : s.maxWords ≤ Config.maxWordsBound) : UnitInv (create n s) where
  maxWords_pos := hpos.trans hle
  maxWords_le := hmax
  wc_pos := hpos
  wc_le := hle
  len_le_capacity := Nat.zero_le _
  pos_le_len := Nat.zero_le _
  bo_lt := by rw [create_bo]; omega
  zero_beyond p _ := bitAt_nil p
  len_le_maxBits := Nat.zero_le _
  mem_wf := wf_nil

theorem UnitInv.hardReset {s : State} (hs : UnitInv s) : UnitInv (hardReset s) :=
  unitInv_create (Nat.le_refl 1) hs.maxWords_pos hs.maxWords_le

/-! ### Every command keeps the invariants -/

theorem writeScalar_inv {ty : ScalarTy} {a : DWord} {f : Form} {s t : State} (hs : UnitInv s)
    (h : writeScalar ty a f s = .next t) : UnitInv t := by
  unfold writeScalar at h
  split at h
  · cases h; exact hs.raise _
  split at h
  · cases h; exact hs.raise _
  next hfield =>
    split at h
    · cases h; exact hs.raise _
    next hroom =>
      cases h
      have hroom := Nat.le_of_not_gt hroom
      exact ((writeField_wrote hs (toNat_add_toNat_le_of_valid hfield) hroom).inv hs hroom).respond 0 0

theorem writeArray_inv {ty : ScalarTy} {b : BufArg} {off cnt : Int} {s t : State} (hs : UnitInv s)
    (h : writeArray ty b off cnt s = .next t) : UnitInv t := by
  unfold writeArray at h
  split at h
  · cases h; exact hs.raise _
  split at h
  · cases h; exact hs.raise _
  split at h
  · cases h; exact hs.raise _
  split at h
  · cases h; exact hs.raise _
  next hroom =>
    cases h
    have hroom := Nat.le_of_not_gt hroom
    exact ((writeElems_wrote hs hroom).inv hs hroom).respond 0 0

theorem readScalar_inv {ty : ScalarTy} {f : Form} {s t : State} (hs : UnitInv s) (h : readScalar ty f s = .next t) :
    UnitInv t := by
  unfold readScalar at h
  split at h
  · cases h; exact hs.raise _
  split at h
  · cases h; exact hs.raise _
  next hfield =>
    obtain ⟨v, hv, -⟩ := readField_spec hs (toNat_add_toNat_le_of_valid hfield)
    rw [hv] at h
    cases h
    exact (hs.setCursor (pos_add_available_le hs _)).respond _ _

theorem readArray_inv {ty : ScalarTy} {b : BufArg} {off cnt : Int} {s t : State} (hs : UnitInv s)
    (h : readArray ty b off cnt s = .next t) : UnitInv t := by
  unfold readArray at h
  split at h
  · cases h; exact hs.raise _
  split at h
  · cases h; exact hs.raise _
  split at h
  · cases h; exact hs.raise _
  · obtain ⟨buf', hb, -⟩ := readElems_spec (ty := ty) (k := cnt.toNat) (i := off.toNat) (total := 0) hs
    rw [hb] at h
    cases h
    exact (hs.setCursor (pos_add_available_le hs _)).congr rfl rfl rfl rfl rfl rfl

theorem execSetpos_inv {p : Int} {s t : State} (hs : UnitInv s) (h : execSetpos p s = .next t) : UnitInv t := by
  unfold execSetpos at h
  split at h
  · cases h; exact hs.raise _
  split at h
  · cases h; exact hs.raise _
  next hp =>
    cases h
    exact (hs.setCursor (by omega)).respond 0 0

theorem execInitc_inv {cap : Int} {s t : State} (hs : UnitInv s) (h : execInitc cap s = .next t) : UnitInv t := by
  unfold execInitc at h
  split at h
  · cases h; exact hs.raise _
  next hcap =>
    split at h
    · cases h; exact hs.raise _
    next hroom =>
      cases h
      exact (unitInv_create (capWords_pos (by omega)) (Nat.le_of_not_gt hroom) hs.maxWords_le).respond 0 0

/-- A command of a kind that changes neither the store nor the cursor keeps the invariants, by the frame of its kind. -/
theorem exec_inv_of_kind {i : Instr} {s t : State} (hs : UnitInv s) (h : exec i s = .next t)
    (hk : ¬ kindOf i ∈ [Kind.write, .read, .arrayWrite, .arrayRead, .setPosition, .init, .initCapacity]) : UnitInv t := by
  cases exec_cases h with
  | failed st _ => exact hs.raise st
  | done v n u hu =>
    obtain ⟨hmem, hlen, hwc⟩ := hu.store fun hm => hk (by simp only [List.mem_cons] at hm ⊢; tauto)
    obtain ⟨hwi, hbo⟩ := hu.cursor hk
    exact (hs.congr hmem hwc hlen hwi hbo hu.maxWords).respond v n

/-- Every command keeps the invariants (10_state.md R27). -/
theorem exec_inv {i : Instr} {s t : State} (hs : UnitInv s) (h : exec i s = .next t) : UnitInv t := by
  induction i using instr_cases
  case h_wr ty a f => exact writeScalar_inv hs ((exec_wr ty a f s).symm.trans h)
  case h_rd ty f => exact readScalar_inv hs ((exec_rd ty f s).symm.trans h)
  case h_wra ty b off cnt => exact writeArray_inv hs ((exec_wra ty b off cnt s).symm.trans h)
  case h_rda ty b off cnt => exact readArray_inv hs ((exec_rda ty b off cnt s).symm.trans h)
  case h_setpos p => exact execSetpos_inv hs h
  case h_initc cap => exact execInitc_inv hs h
  case h_init =>
    cases h
    exact hs.hardReset.respond 0 0
  case h_close | h_flush | h_getpos | h_getlen | h_len8 | h_len16 | h_len32 | h_len64
    | h_canread | h_canwrite | h_canseek | h_cansetlen | h_canflush => exact exec_inv_of_kind hs h (by decide)

/-- Settles O16, by what a step can have done: nothing, a fresh stream, a failure, or a command, each of which keeps the
invariants. -/
theorem everyStepKeepsInvariants : Obligations.EveryStepKeepsInvariants := by
  intro s t hs hstep
  cases step_cases hstep with
  | waited _ => exact hs
  | reset rest _ => exact UnitInv.hardReset (hs.congr rfl rfl rfl rfl rfl rfl)
  | rejected c rest _ _ _ => exact (hs.present c rest).raise _
  | executed c rest i t _ _ he => exact exec_inv (hs.present c rest) he

/-- Settles O15: the reset state is a fresh stream of one word under the largest MAX_WORDS (log entry 5). -/
theorem invariantsHoldAtReset : Obligations.InvariantsHoldAtReset :=
  unitInv_create (s := State.reset) (n := Config.defaultCapWords) (by decide) (by decide) (by decide)

/-! ### The capacity cannot be observed -/

/-- `t` is `s` but for WC. -/
def CapacityOnly (s t : State) : Prop := t = { s with wc := t.wc }

/-- Where the first outcome is a next state, the second is that state but for WC. -/
def AlikeButCapacity (o o' : Host.Outcome State Fault Refusal) : Prop :=
  ∀ t, o = .next t → ∃ m, o' = .next { t with wc := m }

theorem AlikeButCapacity.next {t t' : State} (h : CapacityOnly t t') : AlikeButCapacity (.next t) (.next t') := by
  intro u hu
  cases hu
  exact ⟨t'.wc, congrArg _ h⟩

theorem AlikeButCapacity.ite {p : Prop} [Decidable p] {o₁ o₁' o₂ o₂' : Host.Outcome State Fault Refusal}
    (h₁ : p → AlikeButCapacity o₁ o₁') (h₂ : ¬ p → AlikeButCapacity o₂ o₂') :
    AlikeButCapacity (if p then o₁ else o₂) (if p then o₁' else o₂') := by
  split
  next hp => exact h₁ hp
  next hp => exact h₂ hp

/-- A failure looks at no capacity. -/
theorem AlikeButCapacity.raise (st : Status) (s : State) (n : Nat) :
    AlikeButCapacity (.next (raise st s)) (.next (raise st { s with wc := n })) := .next rfl

theorem CapacityOnly.respond {s t : State} (h : CapacityOnly s t) (v : DWord) (n : Nat) :
    CapacityOnly (respond v n s) (respond v n t) := by
  unfold CapacityOnly at h
  rw [h]
  rfl

/-- One write made in two states that differ in WC only: the bit law fixes every component of the result but WC, and the
canonical form makes stores with the same bits the same (40_bitfield_primitives.md R117, 20_memory.md R59). -/
theorem Wrote.capacityOnly {s u u' : State} {n k : Nat} {f : Nat → Bool} (h : Wrote s u k f)
    (h' : Wrote { s with wc := n } u' k f) : CapacityOnly u u' := by
  have hmem : u'.mem = u.mem := memory_ext_bits h'.mem_wf h.mem_wf fun p => (h'.bits p).trans (h.bits p).symm
  have hlen : u'.len = u.len := h'.len.trans h.len.symm
  have hpos : u'.pos = u.pos := h'.pos.trans h.pos.symm
  have hwi : u'.wi = u.wi := by rw [wi_eq_div h'.bo_lt, wi_eq_div h.bo_lt, hpos]
  have hbo : u'.bo = u.bo := by rw [bo_eq_mod h'.bo_lt, bo_eq_mod h.bo_lt, hpos]
  have hopen : u'.isOpen = u.isOpen := h'.isOpen.trans h.isOpen.symm
  have hmax : u'.maxWords = u.maxWords := h'.maxWords.trans h.maxWords.symm
  have hpend : u'.pending = u.pending := h'.pending.trans h.pending.symm
  have hbuf : u'.buf = u.buf := h'.buf.trans h.buf.symm
  have hans : u'.answers = u.answers := h'.answers.trans h.answers.symm
  rw [CapacityOnly, ← hmem, ← hlen, ← hwi, ← hbo, ← hopen, ← hmax, ← hpend, ← hbuf, ← hans]

/-- A field read looks at words below LEN only, which are there under either capacity (R118). -/
theorem readField_withCapacity {ty : ScalarTy} {b c n : Nat} {s : State} {r : ReadOut 64} (hs : UnitInv s)
    (hn : UnitInv { s with wc := n }) (hbc : b + c ≤ width ty) (h : readField ty b c s = .ok r) :
    readField ty b c { s with wc := n } = .ok ⟨r.value, r.bits, { r.state with wc := n }⟩ := by
  obtain ⟨v, hv, hread⟩ := readField_spec hs hbc
  obtain ⟨v', hv', hread'⟩ := readField_spec hn hbc
  cases hv.symm.trans h
  cases hread.unique hread'
  exact hv'

theorem readElems_withCapacity {ty : ScalarTy} {k i total n total' : Nat} {s t : State} (hs : UnitInv s)
    (hn : UnitInv { s with wc := n }) (h : readElems ty k i total s = .ok (total', t)) :
    readElems ty k i total { s with wc := n } = .ok (total', { t with wc := n }) := by
  induction k generalizing i total s with
  | zero =>
    cases h
    rfl
  | succ k ih =>
    have hw : 0 + width ty ≤ width ty := by omega
    obtain ⟨v, hv, -⟩ := readField_spec hs hw
    have hav := pos_add_available_le hs (width ty)
    unfold readElems at h ⊢
    rw [readField_withCapacity hs hn hw hv]
    rw [hv] at h
    simp only at h ⊢
    split at h
    next h0 =>
      cases h
      rw [if_pos h0]
    next h0 =>
      rw [if_neg h0]
      exact ih ((hs.setCursor hav).bufWrite ty i v) ((hn.setCursor hav).bufWrite ty i v) h

theorem writeScalar_alike (ty : ScalarTy) (a : DWord) (f : Form) {s : State} {n : Nat} (hs : UnitInv s)
    (hn : UnitInv { s with wc := n }) :
    AlikeButCapacity (writeScalar ty a f s) (writeScalar ty a f { s with wc := n }) := by
  unfold writeScalar
  refine .ite (fun _ => .raise _ s n) fun _ => .ite (fun _ => .raise _ s n) fun hfield =>
    .ite (fun _ => .raise _ s n) fun hroom => .next (.respond ?_ 0 0)
  have hfits := toNat_add_toNat_le_of_valid hfield
  have hroom := Nat.le_of_not_gt hroom
  exact (writeField_wrote hs hfits hroom).capacityOnly (writeField_wrote hn hfits hroom)

theorem writeArray_alike (ty : ScalarTy) (b : BufArg) (off cnt : Int) {s : State} {n : Nat} (hs : UnitInv s)
    (hn : UnitInv { s with wc := n }) :
    AlikeButCapacity (writeArray ty b off cnt s) (writeArray ty b off cnt { s with wc := n }) := by
  unfold writeArray
  refine .ite (fun _ => .raise _ s n) fun _ => ?_
  cases b with
  | null => exact .raise _ s n
  | present bufLen =>
    refine .ite (fun _ => .raise _ s n) fun _ => .ite (fun _ => .raise _ s n) fun hroom => .next (.respond ?_ 0 0)
    have hroom := Nat.le_of_not_gt hroom
    exact (writeElems_wrote hs hroom).capacityOnly (writeElems_wrote hn hroom)

theorem readScalar_alike (ty : ScalarTy) (f : Form) {s : State} {n : Nat} (hs : UnitInv s)
    (hn : UnitInv { s with wc := n }) : AlikeButCapacity (readScalar ty f s) (readScalar ty f { s with wc := n }) := by
  unfold readScalar
  refine .ite (fun _ => .raise _ s n) fun _ => .ite (fun _ => .raise _ s n) fun hfield => ?_
  have hfits := toNat_add_toNat_le_of_valid hfield
  obtain ⟨v, hv, -⟩ := readField_spec hs hfits
  rw [readField_withCapacity hs hn hfits hv, hv]
  exact .next rfl

theorem readArray_alike (ty : ScalarTy) (b : BufArg) (off cnt : Int) {s : State} {n : Nat} (hs : UnitInv s)
    (hn : UnitInv { s with wc := n }) :
    AlikeButCapacity (readArray ty b off cnt s) (readArray ty b off cnt { s with wc := n }) := by
  unfold readArray
  refine .ite (fun _ => .raise _ s n) fun _ => ?_
  cases b with
  | null => exact .raise _ s n
  | present bufLen =>
    refine .ite (fun _ => .raise _ s n) fun _ => ?_
    obtain ⟨buf', hb, -⟩ := readElems_spec (ty := ty) (k := cnt.toNat) (i := off.toNat) (total := 0) hs
    rw [readElems_withCapacity hs hn hb, hb]
    exact .next rfl

/-- A command answers alike under either capacity: only writes and creations set WC, and no command reads it but to grow
or to find a word (10_state.md R34(a)). -/
theorem exec_alike (i : Instr) {s : State} {n : Nat} (hs : UnitInv s) (hn : UnitInv { s with wc := n }) :
    AlikeButCapacity (exec i s) (exec i { s with wc := n }) := by
  induction i using instr_cases
  case h_wr ty a f =>
    rw [exec_wr, exec_wr]
    exact writeScalar_alike ty a f hs hn
  case h_rd ty f =>
    rw [exec_rd, exec_rd]
    exact readScalar_alike ty f hs hn
  case h_wra ty b off cnt =>
    rw [exec_wra, exec_wra]
    exact writeArray_alike ty b off cnt hs hn
  case h_rda ty b off cnt =>
    rw [exec_rda, exec_rda]
    exact readArray_alike ty b off cnt hs hn
  case h_initc cap => exact .ite (fun _ => .raise _ s n) fun _ => .ite (fun _ => .raise _ s n) fun _ => .next rfl
  case h_setpos p => exact .ite (fun _ => .raise _ s n) fun _ => .ite (fun _ => .raise _ s n) fun _ => .next rfl
  case h_flush | h_getpos | h_getlen | h_len8 | h_len16 | h_len32 | h_len64 =>
    exact .ite (fun _ => .raise _ s n) fun _ => .next rfl
  case h_init | h_close | h_canread | h_canwrite | h_canseek | h_cansetlen | h_canflush => exact .next rfl

/-- Settles O24: both states take the same event, and what it does is alike but for WC. -/
theorem capacityIsUnobservable : Obligations.CapacityIsUnobservable := by
  intro s t n hs hn hstep
  cases step_cases hstep with
  | waited h => exact ⟨n, step_of_pending_nil h⟩
  | reset rest h => exact ⟨Config.defaultCapWords, step_of_pending_reset h⟩
  | rejected c rest e h hd => exact ⟨n, step_of_decode_error h hd⟩
  | executed c rest i t h hd he =>
    obtain ⟨m, hm⟩ := exec_alike i (hs.present c rest) (hn.present c rest) t he
    exact ⟨m, (step_of_decode_ok (s := { s with wc := n }) h hd).trans hm⟩

/-! ### Frames, reset and the mask table -/

/-- Settles O22: a failure changes nothing, and a success stays within the frame of its kind. -/
theorem frameByKind : Obligations.FrameByKind := by
  intro i s t h
  cases exec_cases h with
  | failed st _ => exact ⟨fun _ => ⟨rfl, rfl, rfl⟩, fun _ => ⟨rfl, rfl⟩, fun _ => rfl, fun _ => rfl⟩
  | done v n u hu => exact ⟨hu.store, hu.cursor, hu.isOpen, hu.buf⟩

/-- Settles O14: the values stand in `State.reset`, and its empty store reads 0. -/
theorem resetStateValues : Obligations.ResetStateValues :=
  ⟨rfl, readWord_nil 0, rfl, rfl, rfl, rfl⟩

/-- Settles O52: the general entry by `mask_toNat`, the five the rule writes out by evaluation. -/
theorem maskTableEntries : Obligations.MaskTableEntries :=
  ⟨rfl, fun _ hn => mask_toNat (Nat.le_of_lt_succ hn), by decide, by decide, by decide, by decide, by decide⟩

end Sys2Proof.Machine
end

section
/-! SUPPORT. Where the bits of a write lie in the bytes and words of the store (spec/20_memory.md R51, R52), and with it
the statements of the family 20_memory.md. -/

namespace Sys2Proof.Machine

/-! ### Bytes and words by their stream bits -/

/-- Bit `j` of stream byte `k` is the stream bit `7 - j` places into the byte (20_memory.md R51, R52(a)). -/
theorem getLsbD_readByte_eq_bitAt (m : List Host.Cell) (k : Nat) {j : Nat} (hj : j < 8) :
    (readByte m k).getLsbD j = bitAt m (8 * k + (7 - j)) := by
  rw [bitAt_eq_byte, show (8 * k + (7 - j)) / 8 = k by omega, show 7 - (8 * k + (7 - j)) % 8 = j by omega]

/-- Bit `j` of word `i` is the stream bit `31 - j` places into the word (20_memory.md R51). -/
theorem getLsbD_readWord_eq_bitAt (m : List Host.Cell) (i : Nat) {j : Nat} (hj : j < 32) :
    (readWord m i).getLsbD j = bitAt m (32 * i + (31 - j)) := by
  rw [bitAt, show (32 * i + (31 - j)) / 32 = i by omega, show 31 - (32 * i + (31 - j)) % 32 = j by omega]

/-! ### A write, bit by bit, byte by byte, word by word -/

section
variable {s t : State} {n : Nat} {f : Nat → Bool}

theorem Wrote.bitAt_inside (h : Wrote s t n f) {i : Nat} (hi : i < n) : bitAt t.mem (s.pos + i) = f i := by
  rw [h.bits, if_pos (by omega), Nat.add_sub_cancel_left]

theorem Wrote.bitAt_outside (h : Wrote s t n f) {p : Nat} (hp : p < s.pos ∨ s.pos + n ≤ p) :
    bitAt t.mem p = bitAt s.mem p := by
  rw [h.bits, if_neg (by omega)]

/-- A stream byte that lies `d` bits into what was written is made of the bits from there on, first bit most significant. -/
theorem Wrote.readByte_inside (h : Wrote s t n f) {k d : Nat} {v : Byte} (hk : 8 * k = s.pos + d) (hd : d + 8 ≤ n)
    (hv : ∀ j, j < 8 → f (d + (7 - j)) = v.getLsbD j) : readByte t.mem k = v := by
  apply BitVec.eq_of_getLsbD_eq
  intro j hj
  rw [getLsbD_readByte_eq_bitAt _ _ hj, hk, Nat.add_assoc, h.bitAt_inside (by omega), hv j hj]

/-- A word that lies `d` bits into what was written is made of the bits from there on, first bit most significant. -/
theorem Wrote.readWord_inside (h : Wrote s t n f) {i d : Nat} {w : Word} (hi : 32 * i = s.pos + d) (hd : d + 32 ≤ n)
    (hw : ∀ j, j < 32 → f (d + (31 - j)) = w.getLsbD j) : readWord t.mem i = w := by
  apply BitVec.eq_of_getLsbD_eq
  intro j hj
  rw [getLsbD_readWord_eq_bitAt _ _ hj, hi, Nat.add_assoc, h.bitAt_inside (by omega), hw j hj]

/-- A stream byte none of whose bits was written stays. -/
theorem Wrote.readByte_outside (h : Wrote s t n f) {k : Nat} (hk : 8 * k + 8 ≤ s.pos ∨ s.pos + n ≤ 8 * k) :
    readByte t.mem k = readByte s.mem k :=
  readByte_eq_of_bits fun _ _ _ => h.bitAt_outside (by omega)

/-- A word none of whose bits was written stays. -/
theorem Wrote.readWord_outside (h : Wrote s t n f) {i : Nat} (hi : 32 * i + 32 ≤ s.pos ∨ s.pos + n ≤ 32 * i) :
    readWord t.mem i = readWord s.mem i := by
  apply BitVec.eq_of_getLsbD_eq
  intro j hj
  rw [getLsbD_readWord_eq_bitAt _ _ hj, getLsbD_readWord_eq_bitAt _ _ hj, h.bitAt_outside (by omega)]

end

/-! ### A scalar write that completes -/

/-- `ValidateField` lets pass exactly the fields that lie in the type (40_bitfield_primitives.md R127). -/
theorem fieldInvalid_iff_not_fieldOk {ty : ScalarTy} {f : Form} :
    FieldInvalid (width ty) (fieldIndex f) (fieldCount (width ty) f) ↔ ¬ FieldOk ty f := by
  simp only [FieldInvalid, FieldOk]
  omega

/-- On an open unit a legal field that fits the store is written at the cursor (41_scalar_write.md R140). -/
theorem exec_wr_wrote {ty : ScalarTy} {a : DWord} {f : Form} {s : State} (hs : UnitInv s) (ho : s.isOpen = true)
    (hf : FieldOk ty f) (hroom : s.pos + fieldBits ty f ≤ 32 * s.maxWords) :
    ∃ u, exec (.wr ty a f) s = .next (respond 0 0 u) ∧
      Wrote s u (fieldBits ty f) (fun i => a.getLsbD (fieldBitIndex (fieldStart f) (fieldBits ty f) i)) := by
  have hvalid : ¬ FieldInvalid (width ty) (fieldIndex f) (fieldCount (width ty) f) :=
    fun hi => fieldInvalid_iff_not_fieldOk.mp hi hf
  have hfits : ¬ s.pos + (fieldCount (width ty) f).toNat > s.maxBits := Nat.not_lt.mpr hroom
  refine ⟨writeField ty a (fieldStart f) (fieldBits ty f) s, ?_,
    writeField_wrote hs (toNat_add_toNat_le_of_valid hvalid) hroom⟩
  rw [exec_wr, writeScalar, if_neg (by rw [ho]; decide), if_neg hvalid, if_neg hfits]
  rfl

theorem fieldOk_whole (ty : ScalarTy) : FieldOk ty .whole :=
  not_not.mp fun h => whole_not_invalid ty (fieldInvalid_iff_not_fieldOk.mpr h)

/-- The whole-value form writes all bits of the type. -/
theorem exec_wr_whole_wrote {ty : ScalarTy} {a : DWord} {s : State} (hs : UnitInv s) (ho : s.isOpen = true)
    (hroom : s.pos + width ty ≤ 32 * s.maxWords) :
    ∃ u, exec (.wr ty a .whole) s = .next (respond 0 0 u) ∧
      Wrote s u (width ty) (fun i => a.getLsbD (fieldBitIndex 0 (width ty) i)) :=
  exec_wr_wrote hs ho (fieldOk_whole ty) hroom

/-- A byte runs from its bit 7 down to its bit 0 (20_memory.md R52(a)). -/
theorem fieldBitIndex_byte {i : Nat} (hi : i < 8) : fieldBitIndex 0 8 i = 7 - i :=
  fieldBitIndex_low (b := 0) (c := 8) (by decide) hi

/-- A whole 64-bit value runs from bit 31 down to bit 0, then from bit 63 down to bit 32 (20_memory.md R52(c)). -/
theorem fieldBitIndex_dword (i : Nat) : fieldBitIndex 0 64 i = if i < 32 then 31 - i else 95 - i := by
  simp only [fieldBitIndex]
  split <;> split <;> omega

/-! ### The statements -/

/-- Settles O23: a failure changes nothing, and every success but a creation's only raises LEN and WC. -/
theorem streamNeverShrinks : Obligations.StreamNeverShrinks := by
  intro i s t hinit hinitc h
  cases exec_cases h with
  | failed st _ => exact ⟨Nat.le_refl _, Nat.le_refl _⟩
  | done v n u hu => exact hu.grows hinit hinitc

/-- Settles O31: the eight bits written are exactly one stream byte, and a stream byte's place in its word is
`extractLsb'_readWord`. -/
theorem byteLandsAtItsStreamByte : Obligations.ByteLandsAtItsStreamByte := by
  intro a s hs ho halign hroom
  obtain ⟨u, hexec, hu⟩ := exec_wr_whole_wrote (ty := .byte) (a := a) hs ho hroom
  have hu : Wrote s u 8 (fun i => a.getLsbD (fieldBitIndex 0 8 i)) := hu
  have hbyte : readByte u.mem (s.pos / 8) = a.extractLsb' 0 8 := by
    refine hu.readByte_inside (d := 0) (by omega) (by decide) fun j hj => ?_
    have hindex : fieldBitIndex 0 8 (0 + (7 - j)) = 0 + j := (fieldBitIndex_byte (by omega)).trans (by omega)
    rw [BitVec.getLsbD_extractLsb', decide_eq_true hj, Bool.true_and]
    exact congrArg a.getLsbD hindex
  have hbits : ∀ i, i < 8 → bitAt u.mem (s.pos + i) = a.getLsbD (7 - i) := fun i hi =>
    (hu.bitAt_inside hi).trans (congrArg a.getLsbD (fieldBitIndex_byte hi))
  have hother : ∀ k, k ≠ s.pos / 8 → readByte u.mem k = readByte s.mem k := fun k hk => hu.readByte_outside (by omega)
  refine ⟨respond 0 0 u, hexec, (extractLsb'_readWord _ _).trans hbyte, hbyte, hbits, fun k hk => ⟨?_, hother k hk⟩⟩
  rw [extractLsb'_readWord, extractLsb'_readWord]
  exact hother k hk

/-- Settles O32: the 64 bits written are exactly two words, and stream order takes the low half before the high half. -/
theorem ulongLiesLowHalfFirst : Obligations.UlongLiesLowHalfFirst := by
  intro a s hs ho halign hroom
  obtain ⟨u, hexec, hu⟩ := exec_wr_whole_wrote (ty := .ulong) (a := a) hs ho hroom
  have hu : Wrote s u 64 (fun i => a.getLsbD (fieldBitIndex 0 64 i)) := hu
  refine ⟨respond 0 0 u, hexec, ?low, ?high, fun i h₁ h₂ => hu.readWord_outside (by omega)⟩
  case low =>
    refine hu.readWord_inside (d := 0) (by omega) (by decide) fun j hj => ?_
    have hindex : fieldBitIndex 0 64 (0 + (31 - j)) = 0 + j := by rw [fieldBitIndex_dword, if_pos (by omega)]; omega
    rw [BitVec.getLsbD_extractLsb', decide_eq_true hj, Bool.true_and, hindex]
  case high =>
    refine hu.readWord_inside (d := 32) (by omega) (by decide) fun j hj => ?_
    have hindex : fieldBitIndex 0 64 (32 + (31 - j)) = 32 + j := by rw [fieldBitIndex_dword, if_neg (by omega)]; omega
    rw [BitVec.getLsbD_extractLsb', decide_eq_true hj, Bool.true_and, hindex]

end Sys2Proof.Machine
end

section
/-! SUPPORT. The fields of a control word and what they make the decoder and the opcode rows answer (spec/30_encoding.md
R81 to R88), said once; with them the statements of the family 30_encoding.md. -/

namespace Sys2Proof

open Machine

/-! ### The fields of a control word -/

theorem cwOp_eq_mod (cw : Word) : cwOp cw = cw.toNat % 256 := by
  simp [cwOp]

theorem cwTy_eq_div_mod (cw : Word) : cwTy cw = cw.toNat / 256 % 16 := by
  simp [cwTy, Nat.shiftRight_eq_div_pow]

theorem cwForm_toNat (cw : Word) : (cwForm cw).toNat = cw.toNat / 4096 % 2 := Nat.toNat_testBit _ 12

theorem cwBuf_toNat (cw : Word) : (cwBuf cw).toNat = cw.toNat / 8192 % 2 := Nat.toNat_testBit _ 13

theorem cwHigh_eq_div (cw : Word) : cwHigh cw = cw.toNat / 16384 := by
  have := cw.isLt
  simp only [cwHigh, BitVec.extractLsb'_toNat, Nat.shiftRight_eq_div_pow]
  omega

/-- A control word is made of its fields (R81). -/
theorem eq_cwOf_iff {cw : Word} {op ty : Nat} {f bp : Bool} (hop : op < 256) (hty : ty < 16) :
    cw = cwOf op ty f bp ↔ cwOp cw = op ∧ cwTy cw = ty ∧ cwForm cw = f ∧ cwBuf cw = bp ∧ cwHigh cw = 0 := by
  have hf := f.toNat_lt
  have hbp := bp.toNat_lt
  have toNat_inj : Function.Injective Bool.toNat := Function.LeftInverse.injective Bool.ofNat_toNat
  rw [← BitVec.toNat_inj, ← toNat_inj.eq_iff (a := cwForm cw), ← toNat_inj.eq_iff (a := cwBuf cw), cwOp_eq_mod,
    cwTy_eq_div_mod, cwForm_toNat, cwBuf_toNat, cwHigh_eq_div, cwOf, BitVec.toNat_ofNat]
  omega

theorem extractLsb'_and_of_allOnes {w m : Word} {start len : Nat} (h : m.extractLsb' start len = BitVec.allOnes len) :
    (w &&& m).extractLsb' start len = w.extractLsb' start len := by
  rw [BitVec.extractLsb'_and, h, BitVec.and_allOnes]

theorem cwOp_and {w m : Word} (h : m.extractLsb' 0 8 = BitVec.allOnes 8) : cwOp (w &&& m) = cwOp w :=
  congrArg BitVec.toNat (extractLsb'_and_of_allOnes h)

theorem cwTy_and {w m : Word} (h : m.extractLsb' 8 4 = BitVec.allOnes 4) : cwTy (w &&& m) = cwTy w :=
  congrArg BitVec.toNat (extractLsb'_and_of_allOnes h)

theorem cwHigh_and {w m : Word} (h : m.extractLsb' 14 18 = BitVec.allOnes 18) : cwHigh (w &&& m) = cwHigh w :=
  congrArg BitVec.toNat (extractLsb'_and_of_allOnes h)

/-- The mask of a scalar command's row selects every field but F (R86). -/
theorem and_allButForm_eq_iff {cw : Word} {op ty : Nat} (hop : op < 256) (hty : ty < 16) :
    cw &&& 0xFFFFEFFF#32 = cwOf op ty false false ↔
      cwOp cw = op ∧ cwTy cw = ty ∧ cwBuf cw = false ∧ cwHigh cw = 0 := by
  have hform : cwForm (cw &&& 0xFFFFEFFF#32) = false := by simp [cwForm]
  have hbuf : cwBuf (cw &&& 0xFFFFEFFF#32) = cwBuf cw := by simp [cwBuf]
  rw [eq_cwOf_iff hop hty, cwOp_and (by decide), cwTy_and (by decide), cwHigh_and (by decide), hform, hbuf,
    eq_self_iff_true, true_and]

/-- The mask of an array command's row selects every field but BP (R86). -/
theorem and_allButBuf_eq_iff {cw : Word} {op ty : Nat} (hop : op < 256) (hty : ty < 16) :
    cw &&& 0xFFFFDFFF#32 = cwOf op ty false false ↔
      cwOp cw = op ∧ cwTy cw = ty ∧ cwForm cw = false ∧ cwHigh cw = 0 := by
  have hform : cwForm (cw &&& 0xFFFFDFFF#32) = cwForm cw := by simp [cwForm]
  have hbuf : cwBuf (cw &&& 0xFFFFDFFF#32) = false := by simp [cwBuf]
  rw [eq_cwOf_iff hop hty, cwOp_and (by decide), cwTy_and (by decide), cwHigh_and (by decide), hform, hbuf,
    eq_self_iff_true, true_and]

/-! ### The type codes -/

theorem codeOfTy_le (ty : ScalarTy) : codeOfTy ty ≤ 10 := by cases ty <;> decide

theorem codeOfTy_lt (ty : ScalarTy) : codeOfTy ty < 16 := Nat.lt_of_le_of_lt (codeOfTy_le ty) (by decide)

/-- Every number up to 10 is a type code (R84). -/
theorem exists_codeOfTy {n : Nat} (h : n ≤ 10) : ∃ ty, n = codeOfTy ty := by
  have hsome : ∀ m ≤ 10, (tyOfCode m).isSome = true := by decide
  obtain ⟨ty, hty⟩ := Option.isSome_iff_exists.mp (hsome n h)
  exact ⟨ty, codeOfTy_of_tyOfCode hty⟩

/-! ### What the decoder answers, family by family -/

theorem decode_of_wr {f : Frame} {ty : ScalarTy} (hop : cwOp f.cw = 0x10) (hty : cwTy f.cw = codeOfTy ty)
    (hhigh : cwHigh f.cw = 0) (hbuf : cwBuf f.cw = false) : decode f = .ok (.wr ty f.a (formOf f)) := by
  simp [decode, scalarOf, typedOf, hop, hty, hhigh, hbuf, tyOfCode_codeOfTy]

theorem decode_of_rd {f : Frame} {ty : ScalarTy} (hop : cwOp f.cw = 0x11) (hty : cwTy f.cw = codeOfTy ty)
    (hhigh : cwHigh f.cw = 0) (hbuf : cwBuf f.cw = false) : decode f = .ok (.rd ty (formOf f)) := by
  simp [decode, scalarOf, typedOf, hop, hty, hhigh, hbuf, tyOfCode_codeOfTy]

theorem decode_of_wra {f : Frame} {ty : ScalarTy} (hop : cwOp f.cw = 0x12) (hty : cwTy f.cw = codeOfTy ty)
    (hhigh : cwHigh f.cw = 0) (hform : cwForm f.cw = false) :
    decode f = .ok (.wra ty (bufArgOf f) f.idx.toInt f.cnt.toInt) := by
  simp [decode, arrayOf, typedOf, hop, hty, hhigh, hform, tyOfCode_codeOfTy]

theorem decode_of_rda {f : Frame} {ty : ScalarTy} (hop : cwOp f.cw = 0x13) (hty : cwTy f.cw = codeOfTy ty)
    (hhigh : cwHigh f.cw = 0) (hform : cwForm f.cw = false) :
    decode f = .ok (.rda ty (bufArgOf f) f.idx.toInt f.cnt.toInt) := by
  simp [decode, arrayOf, typedOf, hop, hty, hhigh, hform, tyOfCode_codeOfTy]

/-- The opcodes of the sixteen commands that take no type (R85). -/
def untypedOps : List Nat :=
  [0x01, 0x02, 0x03, 0x04, 0x20, 0x21, 0x22, 0x23, 0x24, 0x25, 0x26, 0x30, 0x31, 0x32, 0x33, 0x34]

theorem untypedOf_isSome_iff {op : Nat} {f : Frame} : (untypedOf op f).isSome = true ↔ op ∈ untypedOps := by
  unfold untypedOf untypedOps
  split
  case h_17 => simp_all
  all_goals simp

theorem mem_untypedOps_of_untypedOf {op : Nat} {f : Frame} {i : Instr} (h : untypedOf op f = some i) : op ∈ untypedOps :=
  untypedOf_isSome_iff.mp (Option.isSome_of_eq_some h)

theorem decode_of_untyped {f : Frame} {i : Instr} (hi : untypedOf (cwOp f.cw) f = some i) (hty : cwTy f.cw = 0)
    (hform : cwForm f.cw = false) (hbuf : cwBuf f.cw = false) (hhigh : cwHigh f.cw = 0) : decode f = .ok i := by
  unfold decode
  rw [if_neg (not_not.mpr hhigh)]
  split
  case h_5 => simp [hi, hty, hform, hbuf]
  all_goals
    next hop =>
      rw [hop] at hi
      exact absurd (mem_untypedOps_of_untypedOf hi) (by decide)

/-- The instructions a frame stands for, by the fields of its control word: the five ways the decoder accepts a frame. -/
inductive StandsFor (f : Frame) : Instr → Prop
  | wr (ty : ScalarTy) (hop : cwOp f.cw = 0x10) (hty : cwTy f.cw = codeOfTy ty) (hhigh : cwHigh f.cw = 0)
      (hbuf : cwBuf f.cw = false) : StandsFor f (.wr ty f.a (formOf f))
  | rd (ty : ScalarTy) (hop : cwOp f.cw = 0x11) (hty : cwTy f.cw = codeOfTy ty) (hhigh : cwHigh f.cw = 0)
      (hbuf : cwBuf f.cw = false) : StandsFor f (.rd ty (formOf f))
  | wra (ty : ScalarTy) (hop : cwOp f.cw = 0x12) (hty : cwTy f.cw = codeOfTy ty) (hhigh : cwHigh f.cw = 0)
      (hform : cwForm f.cw = false) : StandsFor f (.wra ty (bufArgOf f) f.idx.toInt f.cnt.toInt)
  | rda (ty : ScalarTy) (hop : cwOp f.cw = 0x13) (hty : cwTy f.cw = codeOfTy ty) (hhigh : cwHigh f.cw = 0)
      (hform : cwForm f.cw = false) : StandsFor f (.rda ty (bufArgOf f) f.idx.toInt f.cnt.toInt)
  | untyped {i : Instr} (hi : untypedOf (cwOp f.cw) f = some i) (hty : cwTy f.cw = 0) (hform : cwForm f.cw = false)
      (hbuf : cwBuf f.cw = false) (hhigh : cwHigh f.cw = 0) : StandsFor f i

theorem standsFor_iff {f : Frame} {i : Instr} : StandsFor f i ↔ decode f = .ok i := by
  constructor
  · intro h
    cases h with
    | wr ty hop hty hhigh hbuf => exact decode_of_wr hop hty hhigh hbuf
    | rd ty hop hty hhigh hbuf => exact decode_of_rd hop hty hhigh hbuf
    | wra ty hop hty hhigh hform => exact decode_of_wra hop hty hhigh hform
    | rda ty hop hty hhigh hform => exact decode_of_rda hop hty hhigh hform
    | untyped hi hty hform hbuf hhigh => exact decode_of_untyped hi hty hform hbuf hhigh
  · refine decode_cases (P := fun r => r = .ok i → StandsFor f i) f nofun ?_ ?_ ?_ ?_ ?_
    · rintro ty hop hty hhigh hbuf ⟨⟩
      exact .wr ty hop hty hhigh hbuf
    · rintro ty hop hty hhigh hbuf ⟨⟩
      exact .rd ty hop hty hhigh hbuf
    · rintro ty hop hty hhigh hform ⟨⟩
      exact .wra ty hop hty hhigh hform
    · rintro ty hop hty hhigh hform ⟨⟩
      exact .rda ty hop hty hhigh hform
    · rintro i hi hty hform hbuf hhigh ⟨⟩
      exact .untyped hi hty hform hbuf hhigh

/-! ### Frames whose control word is written out by its fields -/

theorem decode_of_cw_wr {f : Frame} {ty : ScalarTy} {F : Bool} (h : f.cw = cwOf 0x10 (codeOfTy ty) F false) :
    decode f = .ok (.wr ty f.a (if F then .field f.idx.toInt f.cnt.toInt else .whole)) := by
  obtain ⟨hop, hty, hform, hbuf, hhigh⟩ := (eq_cwOf_iff (by decide) (codeOfTy_lt ty)).mp h
  rw [decode_of_wr hop hty hhigh hbuf, formOf, hform]

theorem decode_of_cw_rd {f : Frame} {ty : ScalarTy} {F : Bool} (h : f.cw = cwOf 0x11 (codeOfTy ty) F false) :
    decode f = .ok (.rd ty (if F then .field f.idx.toInt f.cnt.toInt else .whole)) := by
  obtain ⟨hop, hty, hform, hbuf, hhigh⟩ := (eq_cwOf_iff (by decide) (codeOfTy_lt ty)).mp h
  rw [decode_of_rd hop hty hhigh hbuf, formOf, hform]

theorem decode_of_cw_wra {f : Frame} {ty : ScalarTy} {bp : Bool} (h : f.cw = cwOf 0x12 (codeOfTy ty) false bp) :
    decode f = .ok (.wra ty (if bp then .present f.blen.toNat else .null) f.idx.toInt f.cnt.toInt) := by
  obtain ⟨hop, hty, hform, hbuf, hhigh⟩ := (eq_cwOf_iff (by decide) (codeOfTy_lt ty)).mp h
  rw [decode_of_wra hop hty hhigh hform, bufArgOf, hbuf]

theorem decode_of_cw_rda {f : Frame} {ty : ScalarTy} {bp : Bool} (h : f.cw = cwOf 0x13 (codeOfTy ty) false bp) :
    decode f = .ok (.rda ty (if bp then .present f.blen.toNat else .null) f.idx.toInt f.cnt.toInt) := by
  obtain ⟨hop, hty, hform, hbuf, hhigh⟩ := (eq_cwOf_iff (by decide) (codeOfTy_lt ty)).mp h
  rw [decode_of_rda hop hty hhigh hform, bufArgOf, hbuf]

theorem untypedOps_lt {op : Nat} (h : op ∈ untypedOps) : op < 256 := by
  have hall : ∀ n ∈ untypedOps, n < 256 := by decide
  exact hall op h

theorem decode_of_cw_untyped {f : Frame} {op : Nat} {i : Instr} (h : f.cw = cwOf op 0 false false)
    (hi : untypedOf op f = some i) : decode f = .ok i := by
  have hlt := untypedOps_lt (mem_untypedOps_of_untypedOf hi)
  obtain ⟨rfl, hty, hform, hbuf, hhigh⟩ := (eq_cwOf_iff hlt (by decide)).mp h
  exact decode_of_untyped hi hty hform hbuf hhigh

/-! ### Well-formedness -/

theorem formOf_wellFormed (f : Frame) : (formOf f).wellFormed = true := by
  unfold formOf
  split
  · exact Bool.and_eq_true_iff.mpr ⟨fitsI32_toInt f.idx, fitsI32_toInt f.cnt⟩
  · rfl

theorem bufArgOf_wellFormed (f : Frame) : (bufArgOf f).wellFormed = true := by
  unfold bufArgOf
  split
  · exact decide_eq_true f.blen.isLt
  · rfl

theorem arrayWellFormed_iff {b : BufArg} {off cnt : Int} :
    arrayWellFormed b off cnt = true ↔ b.wellFormed = true ∧ fitsI32 off = true ∧ fitsI32 cnt = true := by
  simp [arrayWellFormed, and_assoc]

theorem untypedOf_wellFormed {op : Nat} {f : Frame} {i : Instr} (h : untypedOf op f = some i) : i.wellFormed = true := by
  unfold untypedOf at h
  split at h <;> cases h
  case h_2 | h_6 => exact fitsI64_toInt f.a
  all_goals rfl

/-- Settles O2: the operands are numbers read from fields of the frame. -/
theorem decodedInstructionIsWellFormed : Obligations.DecodedInstructionIsWellFormed := by
  intro f i h
  have harray : arrayWellFormed (bufArgOf f) f.idx.toInt f.cnt.toInt = true :=
    arrayWellFormed_iff.mpr ⟨bufArgOf_wellFormed f, fitsI32_toInt f.idx, fitsI32_toInt f.cnt⟩
  cases standsFor_iff.mpr h with
  | wr ty => exact (wellFormed_wr ..).trans (formOf_wellFormed f)
  | rd ty => exact (wellFormed_rd ..).trans (formOf_wellFormed f)
  | wra ty => exact (wellFormed_wra ..).trans harray
  | rda ty => exact (wellFormed_rda ..).trans harray
  | untyped hi => exact untypedOf_wellFormed hi

/-! ### The encoder -/

theorem scalarFrame_cw (op ty : Nat) (a : DWord) (f : Form) : (scalarFrame op ty a f).cw = cwOf op ty (isField f) false := by
  cases f <;> rfl

theorem scalarFrame_a (op ty : Nat) (a : DWord) (f : Form) : (scalarFrame op ty a f).a = a := by cases f <;> rfl

/-- A scalar command's form reads back from its frame (R82). -/
theorem scalarFrame_form {op ty : Nat} {a : DWord} {f : Form} (hf : f.wellFormed = true) :
    (if isField f then Form.field (scalarFrame op ty a f).idx.toInt (scalarFrame op ty a f).cnt.toInt else .whole) = f := by
  cases f with
  | whole => rfl
  | field idx cnt =>
    obtain ⟨hidx, hcnt⟩ := Bool.and_eq_true_iff.mp hf
    exact congrArg₂ Form.field (toInt_ofInt_of_fitsI32 hidx) (toInt_ofInt_of_fitsI32 hcnt)

/-- BP = 1: the array command names a buffer (R81). -/
def isPresent : BufArg → Bool
  | .null => false
  | .present _ => true

theorem arrayFrame_cw (op ty : Nat) (b : BufArg) (off cnt : Int) :
    (arrayFrame op ty b off cnt).cw = cwOf op ty false (isPresent b) := by
  cases b <;> rfl

theorem arrayFrame_idx {op ty : Nat} {b : BufArg} {off cnt : Int} (h : fitsI32 off = true) :
    (arrayFrame op ty b off cnt).idx.toInt = off := by
  cases b <;> exact toInt_ofInt_of_fitsI32 h

theorem arrayFrame_cnt {op ty : Nat} {b : BufArg} {off cnt : Int} (h : fitsI32 cnt = true) :
    (arrayFrame op ty b off cnt).cnt.toInt = cnt := by
  cases b <;> exact toInt_ofInt_of_fitsI32 h

/-- An array command's buffer reads back from its frame (R83). -/
theorem arrayFrame_buf {op ty : Nat} {b : BufArg} {off cnt : Int} (hb : b.wellFormed = true) :
    (if isPresent b then BufArg.present (arrayFrame op ty b off cnt).blen.toNat else .null) = b := by
  cases b with
  | null => rfl
  | present blen => exact congrArg BufArg.present (toNat_ofNat_of_fitsU32 hb)

/-- Settles O1: the control word of the frame selects the family, whose operands read back. -/
theorem decodeInvertsEncode : Obligations.DecodeInvertsEncode := by
  intro i hi
  induction i using instr_cases
  case h_wr ty a f =>
    rw [wellFormed_wr] at hi
    rw [encode_wr, decode_of_cw_wr (scalarFrame_cw ..), scalarFrame_a, scalarFrame_form hi]
  case h_rd ty f =>
    rw [wellFormed_rd] at hi
    rw [encode_rd, decode_of_cw_rd (scalarFrame_cw ..), scalarFrame_form hi]
  case h_wra ty b off cnt =>
    rw [wellFormed_wra, arrayWellFormed_iff] at hi
    obtain ⟨hb, hoff, hcnt⟩ := hi
    rw [encode_wra, decode_of_cw_wra (arrayFrame_cw ..), arrayFrame_buf hb, arrayFrame_idx hoff, arrayFrame_cnt hcnt]
  case h_rda ty b off cnt =>
    rw [wellFormed_rda, arrayWellFormed_iff] at hi
    obtain ⟨hb, hoff, hcnt⟩ := hi
    rw [encode_rda, decode_of_cw_rda (arrayFrame_cw ..), arrayFrame_buf hb, arrayFrame_idx hoff, arrayFrame_cnt hcnt]
  case h_initc v => exact decode_of_cw_untyped rfl (congrArg (fun v => some (Instr.initc v)) (toInt_ofInt_of_fitsI64 hi))
  case h_setpos v => exact decode_of_cw_untyped rfl (congrArg (fun v => some (Instr.setpos v)) (toInt_ofInt_of_fitsI64 hi))
  all_goals exact decode_of_cw_untyped rfl rfl

/-- Settles O7: each word is the one its row and its F and BP bits make. -/
theorem sampleWordsDecode : Obligations.SampleWordsDecode := by
  have hwr : (0x00000510 : Word) = cwOf 0x10 (codeOfTy .ushort) false false := by decide
  have hwrField : (0x00001510 : Word) = cwOf 0x10 (codeOfTy .ushort) true false := by decide
  have hrd : (0x00000A11 : Word) = cwOf 0x11 (codeOfTy .ulong) false false := by decide
  have hrdaBuf : (0x00002113 : Word) = cwOf 0x13 (codeOfTy .byte) false true := by decide
  have hrda : (0x00000113 : Word) = cwOf 0x13 (codeOfTy .byte) false false := by decide
  have hsetpos : (0x00000021 : Word) = cwOf 0x21 0 false false := by decide
  intro a idx cnt blen
  exact ⟨decode_of_cw_wr (ty := .ushort) (F := false) hwr, decode_of_cw_wr (ty := .ushort) (F := true) hwrField,
    decode_of_cw_rd (ty := .ulong) (F := false) hrd, decode_of_cw_rda (ty := .byte) (bp := true) hrdaBuf,
    decode_of_cw_rda (ty := .byte) (bp := false) hrda, decode_of_cw_untyped hsetpos rfl⟩

/-! ### Frames with one control word -/

/-- A scalar command assembles IDX and CNT where F = 1 only (R82). -/
theorem formOf_congr {f f' : Frame} (hcw : f.cw = f'.cw) (h : cwForm f.cw = true → f.idx = f'.idx ∧ f.cnt = f'.cnt) :
    formOf f = formOf f' := by
  unfold formOf
  rw [← hcw]
  split
  next hform =>
    obtain ⟨hidx, hcnt⟩ := h hform
    rw [hidx, hcnt]
  next => rfl

/-- An array command assembles BLEN where BP = 1 only (R83). -/
theorem bufArgOf_congr {f f' : Frame} (hcw : f.cw = f'.cw) (h : cwBuf f.cw = true → f.blen = f'.blen) :
    bufArgOf f = bufArgOf f' := by
  unfold bufArgOf
  rw [← hcw]
  split
  next hbuf => rw [h hbuf]
  next => rfl

/-- Of the untyped commands `INITC` and `SETPOS` alone assemble A (R83). -/
theorem untypedOf_congr {op : Nat} {f f' : Frame} (h : op ∈ [0x02, 0x21] → f.a = f'.a) :
    untypedOf op f = untypedOf op f' := by
  unfold untypedOf
  split
  case h_2 | h_6 => rw [h (by decide)]
  case h_17 => simp_all
  all_goals rfl

theorem mnemonic_wr (ty : ScalarTy) (a a' : DWord) (f f' : Form) :
    (Instr.wr ty a f).mnemonic = (Instr.wr ty a' f').mnemonic := by cases ty <;> rfl

theorem mnemonic_rd (ty : ScalarTy) (f f' : Form) : (Instr.rd ty f).mnemonic = (Instr.rd ty f').mnemonic := by
  cases ty <;> rfl

theorem mnemonic_wra (ty : ScalarTy) (b b' : BufArg) (off off' cnt cnt' : Int) :
    (Instr.wra ty b off cnt).mnemonic = (Instr.wra ty b' off' cnt').mnemonic := by cases ty <;> rfl

theorem mnemonic_rda (ty : ScalarTy) (b b' : BufArg) (off off' cnt cnt' : Int) :
    (Instr.rda ty b off cnt).mnemonic = (Instr.rda ty b' off' cnt').mnemonic := by cases ty <;> rfl

theorem untypedOf_map_mnemonic (op : Nat) (f f' : Frame) :
    (untypedOf op f).map Instr.mnemonic = (untypedOf op f').map Instr.mnemonic := by
  unfold untypedOf
  split
  case h_17 => simp_all
  all_goals simp only [Option.map_some, Instr.mnemonic]

section

variable {β : Type} {g : Instr → β} {f f' : Frame} {k k' : ScalarTy → Instr}

theorem typedOf_map_congr (hcw : f.cw = f'.cw) (h : ∀ ty, g (k ty) = g (k' ty)) :
    (typedOf f k).map g = (typedOf f' k').map g := by
  unfold typedOf
  rw [← hcw]
  split
  next ty _ => exact congrArg Except.ok (h ty)
  next => rfl

theorem scalarOf_map_congr (hcw : f.cw = f'.cw) (h : ∀ ty, g (k ty) = g (k' ty)) :
    (scalarOf f k).map g = (scalarOf f' k').map g := by
  unfold scalarOf
  rw [← hcw]
  split
  next => rfl
  next => exact typedOf_map_congr hcw h

theorem arrayOf_map_congr (hcw : f.cw = f'.cw) (h : ∀ ty, g (k ty) = g (k' ty)) :
    (arrayOf f k).map g = (arrayOf f' k').map g := by
  unfold arrayOf
  rw [← hcw]
  split
  next => rfl
  next => exact typedOf_map_congr hcw h

/-- Two frames with one control word are rejected alike or decode to one row (R87), so what is looked at through `g` is the
same as soon as it is the same for the operands that the row of the control word assembles from either. -/
theorem decode_map_congr (hcw : f.cw = f'.cw)
    (h_wr : cwOp f.cw = 0x10 → ∀ ty, g (.wr ty f.a (formOf f)) = g (.wr ty f'.a (formOf f')))
    (h_rd : cwOp f.cw = 0x11 → ∀ ty, g (.rd ty (formOf f)) = g (.rd ty (formOf f')))
    (h_wra : cwOp f.cw = 0x12 → ∀ ty, g (.wra ty (bufArgOf f) f.idx.toInt f.cnt.toInt) =
      g (.wra ty (bufArgOf f') f'.idx.toInt f'.cnt.toInt))
    (h_rda : cwOp f.cw = 0x13 → ∀ ty, g (.rda ty (bufArgOf f) f.idx.toInt f.cnt.toInt) =
      g (.rda ty (bufArgOf f') f'.idx.toInt f'.cnt.toInt))
    (h_untyped : (untypedOf (cwOp f.cw) f).map g = (untypedOf (cwOp f.cw) f').map g) :
    (decode f).map g = (decode f').map g := by
  unfold decode
  rw [← hcw]
  split
  · rfl
  split
  next hop => exact scalarOf_map_congr hcw (h_wr hop)
  next hop => exact scalarOf_map_congr hcw (h_rd hop)
  next hop => exact arrayOf_map_congr hcw (h_wra hop)
  next hop => exact arrayOf_map_congr hcw (h_rda hop)
  next =>
    cases hi : untypedOf (cwOp f.cw) f <;> cases hi' : untypedOf (cwOp f.cw) f' <;> rw [hi, hi'] at h_untyped
    case none.some => cases h_untyped
    case some.none => cases h_untyped
    case some.some i i' =>
      have hg : g i = g i' := Option.some.inj h_untyped
      dsimp only
      split_ifs
      · rfl
      · rfl
      · rfl
      · exact congrArg Except.ok hg

end

/-- Settles O4: the operands have no part in an instruction's mnemonic. -/
theorem decodeLooksAtControlWordOnly : Obligations.DecodeLooksAtControlWordOnly := fun _ _ hcw =>
  decode_map_congr hcw (fun _ _ => mnemonic_wr ..) (fun _ _ => mnemonic_rd ..) (fun _ _ => mnemonic_wra ..)
    (fun _ _ => mnemonic_rda ..) (untypedOf_map_mnemonic ..)

/-- Settles O6: each family assembles its operands from the fields it uses. -/
theorem unusedFieldsAreIgnored : Obligations.UnusedFieldsAreIgnored := by
  intro f f' hcw ha hidx hblen
  have hform (hop : cwOp f.cw ∈ [0x10, 0x11]) : formOf f = formOf f' :=
    formOf_congr hcw fun hF => hidx (by simp only [usesIndexCount, hop, hF, decide_true, Bool.and_self, Bool.true_or])
  have hbuf (hop : cwOp f.cw ∈ [0x12, 0x13]) : bufArgOf f = bufArgOf f' :=
    bufArgOf_congr hcw fun hB => hblen (by simp only [usesBufLen, hop, hB, decide_true, Bool.and_self])
  have hrange (hop : cwOp f.cw ∈ [0x12, 0x13]) : f.idx = f'.idx ∧ f.cnt = f'.cnt :=
    hidx (by simp only [usesIndexCount, hop, decide_true, Bool.or_true])
  have hid : (decode f).map id = (decode f').map id := by
    refine decode_map_congr hcw (fun hop ty => ?wr) (fun hop ty => ?rd) (fun hop ty => ?wra) (fun hop ty => ?rda) ?untyped
    case wr => rw [ha (decide_eq_true (by simp [hop])), hform (by simp [hop])]
    case rd => rw [hform (by simp [hop])]
    case wra | rda =>
      obtain ⟨hidx, hcnt⟩ := hrange (by simp [hop])
      rw [hbuf (by simp [hop]), hidx, hcnt]
    case untyped =>
      rw [untypedOf_congr (f' := f') fun hop => ha (decide_eq_true ?_)]
      simp only [List.mem_cons, List.not_mem_nil, or_false] at hop ⊢
      omega
  rwa [Except.map_id] at hid

/-! ### The rows of the opcode map -/

/-- The control word matches the instruction's row (R86). -/
def MatchesRow (cw : Word) (i : Instr) : Prop := cw &&& rowMask i = rowMatch i

theorem matchesRow_wr_iff {cw : Word} {ty : ScalarTy} {a : DWord} {f : Form} : MatchesRow cw (.wr ty a f) ↔
    cwOp cw = 0x10 ∧ cwTy cw = codeOfTy ty ∧ cwBuf cw = false ∧ cwHigh cw = 0 := by
  have hmask : rowMask (.wr ty a f) = 0xFFFFEFFF#32 := by cases ty <;> rfl
  have hmatch : rowMatch (.wr ty a f) = cwOf 0x10 (codeOfTy ty) false false := by cases ty <;> rfl
  rw [MatchesRow, hmask, hmatch, and_allButForm_eq_iff (by decide) (codeOfTy_lt ty)]

theorem matchesRow_rd_iff {cw : Word} {ty : ScalarTy} {f : Form} : MatchesRow cw (.rd ty f) ↔
    cwOp cw = 0x11 ∧ cwTy cw = codeOfTy ty ∧ cwBuf cw = false ∧ cwHigh cw = 0 := by
  have hmask : rowMask (.rd ty f) = 0xFFFFEFFF#32 := by cases ty <;> rfl
  have hmatch : rowMatch (.rd ty f) = cwOf 0x11 (codeOfTy ty) false false := by cases ty <;> rfl
  rw [MatchesRow, hmask, hmatch, and_allButForm_eq_iff (by decide) (codeOfTy_lt ty)]

theorem matchesRow_wra_iff {cw : Word} {ty : ScalarTy} {b : BufArg} {off cnt : Int} : MatchesRow cw (.wra ty b off cnt) ↔
    cwOp cw = 0x12 ∧ cwTy cw = codeOfTy ty ∧ cwForm cw = false ∧ cwHigh cw = 0 := by
  have hmask : rowMask (.wra ty b off cnt) = 0xFFFFDFFF#32 := by cases ty <;> rfl
  have hmatch : rowMatch (.wra ty b off cnt) = cwOf 0x12 (codeOfTy ty) false false := by cases ty <;> rfl
  rw [MatchesRow, hmask, hmatch, and_allButBuf_eq_iff (by decide) (codeOfTy_lt ty)]

theorem matchesRow_rda_iff {cw : Word} {ty : ScalarTy} {b : BufArg} {off cnt : Int} : MatchesRow cw (.rda ty b off cnt) ↔
    cwOp cw = 0x13 ∧ cwTy cw = codeOfTy ty ∧ cwForm cw = false ∧ cwHigh cw = 0 := by
  have hmask : rowMask (.rda ty b off cnt) = 0xFFFFDFFF#32 := by cases ty <;> rfl
  have hmatch : rowMatch (.rda ty b off cnt) = cwOf 0x13 (codeOfTy ty) false false := by cases ty <;> rfl
  rw [MatchesRow, hmask, hmatch, and_allButBuf_eq_iff (by decide) (codeOfTy_lt ty)]

/-- An untyped command's row is its opcode alone, every other bit of the control word 0 (R86). -/
theorem row_of_untypedOf {op : Nat} {f : Frame} {i : Instr} (h : untypedOf op f = some i) :
    rowMask i = 0xFFFFFFFF#32 ∧ rowMatch i = cwOf op 0 false false := by
  unfold untypedOf at h
  split at h <;> cases h <;> exact ⟨rfl, rfl⟩

theorem matchesRow_untyped_iff {cw : Word} {i : Instr} (hmask : rowMask i = 0xFFFFFFFF#32) :
    MatchesRow cw i ↔ cw = rowMatch i := by
  rw [MatchesRow, hmask, show (0xFFFFFFFF#32 : Word) = BitVec.allOnes 32 from rfl, BitVec.and_allOnes]

/-- The row of a decoded instruction matches the control word it was decoded from. -/
theorem matchesRow_of_decode {f : Frame} {i : Instr} (h : decode f = .ok i) : MatchesRow f.cw i := by
  cases standsFor_iff.mpr h with
  | wr ty hop hty hhigh hbuf => exact matchesRow_wr_iff.mpr ⟨hop, hty, hbuf, hhigh⟩
  | rd ty hop hty hhigh hbuf => exact matchesRow_rd_iff.mpr ⟨hop, hty, hbuf, hhigh⟩
  | wra ty hop hty hhigh hform => exact matchesRow_wra_iff.mpr ⟨hop, hty, hform, hhigh⟩
  | rda ty hop hty hhigh hform => exact matchesRow_rda_iff.mpr ⟨hop, hty, hform, hhigh⟩
  | untyped hi hty hform hbuf hhigh =>
    obtain ⟨hmask, hmatch⟩ := row_of_untypedOf hi
    have hlt := untypedOps_lt (mem_untypedOps_of_untypedOf hi)
    have hcw := (eq_cwOf_iff hlt (by decide)).mpr ⟨rfl, hty, hform, hbuf, hhigh⟩
    exact (matchesRow_untyped_iff hmask).mpr (hcw.trans hmatch.symm)

/-- A control word that matches the row of an untyped command decodes to that command with the frame's operand. -/
theorem decode_of_matchesRow_untyped {f : Frame} {i j : Instr} (hi : untypedOf (cwOp (rowMatch j)) f = some i)
    (hmask : rowMask j = 0xFFFFFFFF#32) (hmatch : rowMatch j = cwOf (cwOp (rowMatch j)) 0 false false)
    (h : MatchesRow f.cw j) : decode f = .ok i :=
  decode_of_cw_untyped (((matchesRow_untyped_iff hmask).mp h).trans hmatch) hi

/-- A control word that matches a row decodes to an instruction of that row. -/
theorem decode_of_matchesRow {f : Frame} {j : Instr} (h : MatchesRow f.cw j) :
    ∃ i, decode f = .ok i ∧ j.mnemonic = i.mnemonic := by
  induction j using instr_cases
  case h_wr ty a form =>
    obtain ⟨hop, hty, hbuf, hhigh⟩ := matchesRow_wr_iff.mp h
    exact ⟨_, decode_of_wr hop hty hhigh hbuf, mnemonic_wr ..⟩
  case h_rd ty form =>
    obtain ⟨hop, hty, hbuf, hhigh⟩ := matchesRow_rd_iff.mp h
    exact ⟨_, decode_of_rd hop hty hhigh hbuf, mnemonic_rd ..⟩
  case h_wra ty b off cnt =>
    obtain ⟨hop, hty, hform, hhigh⟩ := matchesRow_wra_iff.mp h
    exact ⟨_, decode_of_wra hop hty hhigh hform, mnemonic_wra ..⟩
  case h_rda ty b off cnt =>
    obtain ⟨hop, hty, hform, hhigh⟩ := matchesRow_rda_iff.mp h
    exact ⟨_, decode_of_rda hop hty hhigh hform, mnemonic_rda ..⟩
  all_goals
    have hd := decode_of_matchesRow_untyped (f := f) rfl rfl rfl h
    exact ⟨_, hd, rfl⟩

/-- Settles O3: the words that match a row are exactly those that decode to an instruction of it. -/
theorem matchAndMaskSelect : Obligations.MatchAndMaskSelect := by
  intro f
  refine ⟨fun i hi => ⟨matchesRow_of_decode hi, fun j hj => ?_⟩, fun e he j hj => ?_⟩
  · obtain ⟨i', hi', hrow⟩ := decode_of_matchesRow hj
    cases hi.symm.trans hi'
    exact hrow
  · obtain ⟨i, hi, -⟩ := decode_of_matchesRow hj
    cases he.symm.trans hi

/-! ### Reserved words -/

theorem not_reservedWord_of_decode {f : Frame} {i : Instr} (h : decode f = .ok i) : ¬ ReservedWord f.cw := by
  cases standsFor_iff.mpr h with
  | wr ty hop hty hhigh hbuf | rd ty hop hty hhigh hbuf =>
    simp [ReservedWord, hop, hty, hhigh, hbuf, codeOfTy_le ty]
  | wra ty hop hty hhigh hform | rda ty hop hty hhigh hform =>
    simp [ReservedWord, hop, hty, hhigh, hform, codeOfTy_le ty]
  | untyped hi hty hform hbuf hhigh =>
    have hop := mem_untypedOps_of_untypedOf hi
    simp only [untypedOps, List.mem_cons, List.not_mem_nil, or_false] at hop
    rintro (hbits | hknown | ⟨htyped, -⟩ | ⟨-, hcode⟩ | ⟨hF, -⟩ | ⟨hB, -⟩)
    · exact hbits hhigh
    · simp only [List.mem_cons, List.not_mem_nil, or_false] at hknown
      omega
    · simp only [List.mem_cons, List.not_mem_nil, or_false] at htyped
      omega
    · exact hcode hty
    · cases hform.symm.trans hF
    · cases hbuf.symm.trans hB

theorem decode_of_not_reservedWord {f : Frame} (h : ¬ ReservedWord f.cw) : ∃ i, decode f = .ok i := by
  simp only [ReservedWord, not_or, not_and, not_not] at h
  obtain ⟨hhigh, hop, hty, hty0, hform, hbuf⟩ := h
  by_cases htyped : cwOp f.cw ∈ [0x10, 0x11, 0x12, 0x13]
  · obtain ⟨ty, hcode⟩ := exists_codeOfTy (Nat.le_of_not_lt (hty htyped))
    simp only [List.mem_cons, List.not_mem_nil, or_false] at htyped
    obtain hwr | hrd | hwra | hrda := htyped
    · exact ⟨_, decode_of_wr hwr hcode hhigh (by simpa [hwr] using hbuf)⟩
    · exact ⟨_, decode_of_rd hrd hcode hhigh (by simpa [hrd] using hbuf)⟩
    · exact ⟨_, decode_of_wra hwra hcode hhigh (by simpa [hwra] using hform)⟩
    · exact ⟨_, decode_of_rda hrda hcode hhigh (by simpa [hrda] using hform)⟩
  · have huntyped : cwOp f.cw ∈ untypedOps := by
      simp only [untypedOps, List.mem_cons, List.not_mem_nil, or_false] at hop htyped ⊢
      omega
    have hform : cwForm f.cw = false :=
      Bool.eq_false_of_not_eq_true fun hF => htyped (List.mem_append_left [0x12, 0x13] (hform hF))
    have hbuf : cwBuf f.cw = false :=
      Bool.eq_false_of_not_eq_true fun hB => htyped (List.mem_append_right [0x10, 0x11] (hbuf hB))
    obtain ⟨i, hi⟩ := Option.isSome_iff_exists.mp (untypedOf_isSome_iff.mpr huntyped)
    exact ⟨i, decode_of_untyped hi (hty0 htyped) hform hbuf hhigh⟩

/-- Settles O5: the decoder accepts exactly the words that are not reserved. -/
theorem reservedWordsAreExactlyTheRejected : Obligations.ReservedWordsAreExactlyTheRejected := by
  intro f
  constructor
  · rintro ⟨e, he⟩
    by_contra hres
    obtain ⟨i, hi⟩ := decode_of_not_reservedWord hres
    cases he.symm.trans hi
  · intro hres
    cases hd : decode f with
    | error e => exact ⟨e, rfl⟩
    | ok i => exact absurd hres (not_reservedWord_of_decode hd)

end Sys2Proof

namespace Sys2Proof.Machine

/-- Settles O18: a failure answers (st, 0, 0), and a success answers within the frame of its kind. -/
theorem responseFrame : Obligations.ResponseFrame := by
  intro i s t h
  cases exec_cases h with
  | failed st _ => exact ⟨⟨st, 0, 0⟩, rfl, rfl, rfl, fun _ => ⟨rfl, rfl⟩, fun _ _ => rfl, fun _ _ _ => rfl⟩
  | done v n u hu =>
    refine ⟨⟨.ok, v, BitVec.ofNat 64 n⟩, ?_, hu.pending, hu.maxWords, fun hst => absurd rfl hst, fun hr ha => ?_,
      hu.value⟩
    · rw [respond_answers, respond_buf, hu.answers]
    · exact congrArg (BitVec.ofNat 64) (hu.count hr ha)

/-! ### Types of one width -/

section

variable {ty ty' : ScalarTy} (h : width ty = width ty')
include h

theorem elementOf_congr_width (v : DWord) : elementOf ty v = elementOf ty' v := by
  unfold elementOf
  rw [h]

theorem bufRead_congr_width (s : State) (i : Nat) : bufRead ty s i = bufRead ty' s i := elementOf_congr_width h _

theorem bufWrite_congr_width (i : Nat) (v : DWord) (s : State) : bufWrite ty i v s = bufWrite ty' i v s := by
  rw [bufWrite, bufWrite, elementOf_congr_width h]

theorem writeField_congr_width (v : DWord) (b c : Nat) (s : State) : writeField ty v b c s = writeField ty' v b c s := by
  rw [writeField, writeField, h]

theorem readField_congr_width (b c : Nat) (s : State) : readField ty b c s = readField ty' b c s := by
  unfold readField
  rw [h]

theorem writeElems_congr_width (k i : Nat) (s : State) : writeElems ty k i s = writeElems ty' k i s := by
  induction k generalizing i s with
  | zero => rfl
  | succ k ih => rw [writeElems, writeElems, ih, h, bufRead_congr_width h, writeField_congr_width h]

theorem readElems_congr_width (k i total : Nat) (s : State) : readElems ty k i total s = readElems ty' k i total s := by
  induction k generalizing i total s with
  | zero => rfl
  | succ k ih => simp only [readElems, ih, h, bufWrite_congr_width h, readField_congr_width h]

end

/-- Settles O30: the four templates look at a type through its width only. -/
theorem typesOfOneWidthBehaveAlike : Obligations.TypesOfOneWidthBehaveAlike := by
  intro ty ty' h a f b off cnt s
  simp only [exec_wr, exec_rd, exec_wra, exec_rda]
  refine ⟨?_, ?_, ?_, ?_⟩
  · simp only [writeScalar, h, writeField_congr_width h]
  · simp only [readScalar, h, readField_congr_width h]
  · simp only [writeArray, h, writeElems_congr_width h]
  · simp only [readArray, readElems_congr_width h]

/-- Settles O27: the two forms have one index and one count (30_encoding.md R82). -/
theorem wholeFormIsTheFullField : Obligations.WholeFormIsTheFullField := by
  intro ty a s
  have hindex : fieldIndex .whole = fieldIndex (.field 0 (width ty)) := rfl
  have hcount : fieldCount (width ty) .whole = fieldCount (width ty) (.field 0 (width ty)) := rfl
  constructor
  · rw [exec_wr, exec_wr, writeScalar, writeScalar, hindex, hcount]
  · rw [exec_rd, exec_rd, readScalar, readScalar, hindex, hcount]

end Sys2Proof.Machine
end

section
/-! SUPPORT. Why no command stops a unit that has the invariants, and why a read looks at no word beyond WC; with them the
statements of the family 40_bitfield_primitives.md. -/

namespace Sys2Proof.Machine

/-! ### Every command answers -/

/-- The outcome is a next state: no fault, no refusal. -/
def Answers (o : Host.Outcome State Fault Refusal) : Prop := ∃ t, o = .next t

theorem Answers.next (t : State) : Answers (.next t) := ⟨t, rfl⟩

theorem Answers.ite {p : Prop} [Decidable p] {o o' : Host.Outcome State Fault Refusal} (h : p → Answers o)
    (h' : ¬ p → Answers o') : Answers (if p then o else o') := by
  split
  next hp => exact h hp
  next hp => exact h' hp

/-- A write stops in no state: it fails with a status, or its loop ends (40_bitfield_primitives.md R125). -/
theorem writeScalar_answers (ty : ScalarTy) (a : DWord) (f : Form) (s : State) : Answers (writeScalar ty a f s) :=
  .ite (fun _ => .next _) fun _ => .ite (fun _ => .next _) fun _ => .ite (fun _ => .next _) fun _ => .next _

theorem writeArray_answers (ty : ScalarTy) (b : BufArg) (off cnt : Int) (s : State) :
    Answers (writeArray ty b off cnt s) := by
  refine .ite (fun _ => .next _) fun _ => ?_
  cases b with
  | null => exact .next _
  | present bufLen => exact .ite (fun _ => .next _) fun _ => .ite (fun _ => .next _) fun _ => .next _

/-- The one stop of the model is a read of an absent word, and a field read makes none within the invariants. -/
theorem readScalar_answers (ty : ScalarTy) (f : Form) {s : State} (hs : UnitInv s) : Answers (readScalar ty f s) := by
  refine .ite (fun _ => .next _) fun _ => .ite (fun _ => .next _) fun hfield => ?_
  obtain ⟨v, hv, -⟩ := readField_spec hs (toNat_add_toNat_le_of_valid hfield)
  rw [hv]
  exact .next _

theorem readArray_answers (ty : ScalarTy) (b : BufArg) (off cnt : Int) {s : State} (hs : UnitInv s) :
    Answers (readArray ty b off cnt s) := by
  refine .ite (fun _ => .next _) fun _ => ?_
  cases b with
  | null => exact .next _
  | present bufLen =>
    refine .ite (fun _ => .next _) fun _ => ?_
    obtain ⟨buf', hb, -⟩ := readElems_spec (ty := ty) (k := cnt.toNat) (i := off.toNat) (total := 0) hs
    rw [hb]
    exact .next _

/-- Every command answers: the four typed families as above, the rest because they hold no loop and read no word. -/
theorem exec_answers (i : Instr) {s : State} (hs : UnitInv s) : Answers (exec i s) := by
  induction i using instr_cases
  case h_wr ty a f => exact exec_wr ty a f s ▸ writeScalar_answers ty a f s
  case h_rd ty f => exact exec_rd ty f s ▸ readScalar_answers ty f hs
  case h_wra ty b off cnt => exact exec_wra ty b off cnt s ▸ writeArray_answers ty b off cnt s
  case h_rda ty b off cnt => exact exec_rda ty b off cnt s ▸ readArray_answers ty b off cnt hs
  case h_initc cap => exact .ite (fun _ => .next _) fun _ => .ite (fun _ => .next _) fun _ => .next _
  case h_setpos p => exact .ite (fun _ => .next _) fun _ => .ite (fun _ => .next _) fun _ => .next _
  case h_flush | h_getpos | h_getlen | h_len8 | h_len16 | h_len32 | h_len64 =>
    exact .ite (fun _ => .next _) fun _ => .next _
  case h_init | h_close | h_canread | h_canwrite | h_canseek | h_cansetlen | h_canflush => exact .next _

theorem step_answers {s : State} (hs : UnitInv s) : Answers (step s) := by
  match h : s.pending with
  | [] => exact ⟨_, step_of_pending_nil h⟩
  | .reset :: rest => exact ⟨_, step_of_pending_reset h⟩
  | .command c :: rest =>
    match hd : decode c.frame with
    | .ok i => exact step_of_decode_ok h hd ▸ exec_answers i (hs.present c rest)
    | .error e => exact ⟨_, step_of_decode_error h hd⟩

theorem runSteps_succ_of_next {n : Nat} {s t : State} (h : step s = .next t) : runSteps (n + 1) s = runSteps n t := by
  rw [runSteps, h]

/-- Settles O17, by induction on the number of steps: each answers, and leaves a state with the invariants. -/
theorem everyRunGoesOn : Obligations.EveryRunGoesOn := by
  intro n
  induction n with
  | zero => exact fun s hs => ⟨s, rfl, hs⟩
  | succ n ih =>
    intro s hs
    obtain ⟨t, ht⟩ := step_answers hs
    rw [runSteps_succ_of_next ht]
    exact ih t (everyStepKeepsInvariants s t hs ht)

/-! ### Reads over another store -/

/-- The store `m` has the words of `s` that are allocated; what it holds beyond WC is free. -/
def SameWords (m : List Host.Cell) (s : State) : Prop := ∀ i, i < s.wc → readWord m i = readWord s.mem i

theorem SameWords.of_cursorOnly {m : List Host.Cell} {s t : State} (hm : SameWords m s) (h : CursorOnly s t) :
    SameWords m t := by
  rw [CursorOnly] at h
  rw [h]
  exact hm

/-- The only look at the store is at a word that is allocated (00_scope.md R7). -/
theorem memRead_withStore {m : List Host.Cell} {s : State} (hm : SameWords m s) (i : Nat) :
    memRead { s with mem := m } i = memRead s i :=
  if_ctx_congr Iff.rfl (fun hi => congrArg some (hm i hi)) fun _ => rfl

theorem advance_withStore (k : Nat) (s : State) (m : List Host.Cell) :
    advance k { s with mem := m } = { advance k s with mem := m } := by
  unfold advance
  split <;> rfl

theorem readLoop_withStore {m : List Host.Cell} {b fuel rem : Nat} {value v : Word} {s t : State} (hm : SameWords m s)
    (h : readLoop b fuel rem value s = .ok (v, t)) :
    readLoop b fuel rem value { s with mem := m } = .ok (v, { t with mem := m }) := by
  induction fuel generalizing rem value s with
  | zero =>
    cases h
    rfl
  | succ fuel ih =>
    rw [readLoop] at h ⊢
    rw [memRead_withStore hm, advance_withStore]
    split at h
    next h0 =>
      cases h
      rw [if_pos h0]
    next h0 =>
      rw [if_neg h0]
      split at h
      · cases h
      next w hw =>
        rw [hw]
        exact ih (hm.of_cursorOnly (advance_cursorOnly _ s)) h

theorem readBits_of_readLoop {b c : Nat} {v : Word} {s t : State}
    (h : readLoop b (available s c) (available s c) 0 s = .ok (v, t)) : readBits b c s = .ok ⟨v, available s c, t⟩ := by
  rw [readBits, h]

theorem readBits_withStore {m : List Host.Cell} {b c : Nat} {s : State} {r : ReadOut 32} (hm : SameWords m s)
    (h : readBits b c s = .ok r) :
    readBits b c { s with mem := m } = .ok { r with state := { r.state with mem := m } } := by
  rw [readBits] at h
  split at h
  · cases h
  next hl =>
    cases h
    exact readBits_of_readLoop (readLoop_withStore hm hl)

theorem readHalf_withStore {m : List Host.Cell} {b c : Nat} {s : State} {r : ReadOut 32} (hm : SameWords m s)
    (h : readHalf b c s = .ok r) :
    readHalf b c { s with mem := m } = .ok { r with state := { r.state with mem := m } } := by
  rw [readHalf] at h ⊢
  split at h
  next hc => rw [if_pos hc, readBits_withStore hm h]
  next hc =>
    cases h
    rw [if_neg hc]

theorem read64_withStore {m : List Host.Cell} {b c : Nat} {s : State} {r : ReadOut 64} (hm : SameWords m s)
    (h : read64 b c s = .ok r) :
    read64 b c { s with mem := m } = .ok { r with state := { r.state with mem := m } } := by
  simp only [read64, Config.halfOrder] at h ⊢
  split at h
  · cases h
  next lo hlo =>
    rw [readHalf_withStore hm hlo]
    split at h
    · cases h
    next hi hhi =>
      cases h
      simp only [readHalf_withStore (hm.of_cursorOnly (readHalf_cursorOnly hlo)) hhi]
      rfl

/-- A field read runs the same over a store with the same allocated words, and leaves that store (R118, R123). -/
theorem readField_withStore {m : List Host.Cell} {ty : ScalarTy} {b c : Nat} {s : State} {r : ReadOut 64}
    (hm : SameWords m s) (h : readField ty b c s = .ok r) :
    readField ty b c { s with mem := m } = .ok { r with state := { r.state with mem := m } } := by
  rw [readField] at h ⊢
  split at h
  next hw =>
    rw [if_pos hw]
    split at h
    · cases h
    next r' hr =>
      cases h
      rw [readBits_withStore hm hr]
  next hw => rw [if_neg hw, read64_withStore hm h]

/-- The loop of RDA changes no allocated word between two elements, so each is read alike (43_array.md R193). -/
theorem readElems_withStore {m : List Host.Cell} {ty : ScalarTy} {k i total total' : Nat} {s t : State}
    (hm : SameWords m s) (h : readElems ty k i total s = .ok (total', t)) :
    readElems ty k i total { s with mem := m } = .ok (total', { t with mem := m }) := by
  induction k generalizing i total s with
  | zero =>
    cases h
    rfl
  | succ k ih =>
    rw [readElems] at h ⊢
    split at h
    · cases h
    next r hr =>
      rw [readField_withStore hm hr]
      split at h
      next h0 =>
        cases h
        exact if_pos h0
      next h0 =>
        have hmr : SameWords m r.state := hm.of_cursorOnly (readField_cursorOnly hr)
        exact (if_neg h0).trans (ih (s := bufWrite ty i r.value r.state) hmr h)

/-- Both outcomes are next states, the second the first over the store `m`. -/
def AnswerAlikeOver (m : List Host.Cell) (o o' : Host.Outcome State Fault Refusal) : Prop :=
  ∃ t, o = .next t ∧ o' = .next { t with mem := m }

theorem AnswerAlikeOver.next (m : List Host.Cell) (t : State) :
    AnswerAlikeOver m (.next t) (.next { t with mem := m }) := ⟨t, rfl, rfl⟩

theorem AnswerAlikeOver.ite {m : List Host.Cell} {p : Prop} [Decidable p]
    {o₁ o₁' o₂ o₂' : Host.Outcome State Fault Refusal} (h₁ : p → AnswerAlikeOver m o₁ o₁')
    (h₂ : ¬ p → AnswerAlikeOver m o₂ o₂') : AnswerAlikeOver m (if p then o₁ else o₂) (if p then o₁' else o₂') := by
  split
  next hp => exact h₁ hp
  next hp => exact h₂ hp

theorem readScalar_alikeOver {m : List Host.Cell} (ty : ScalarTy) (f : Form) {s : State} (hs : UnitInv s)
    (hm : SameWords m s) : AnswerAlikeOver m (readScalar ty f s) (readScalar ty f { s with mem := m }) := by
  refine .ite (fun _ => .next m (raise _ s)) fun _ => .ite (fun _ => .next m (raise _ s)) fun hfield => ?_
  obtain ⟨v, hv, -⟩ := readField_spec hs (toNat_add_toNat_le_of_valid hfield)
  rw [readField_withStore hm hv, hv]
  exact .next m (respond _ _ _)

theorem readArray_alikeOver {m : List Host.Cell} (ty : ScalarTy) (b : BufArg) (off cnt : Int) {s : State}
    (hs : UnitInv s) (hm : SameWords m s) :
    AnswerAlikeOver m (readArray ty b off cnt s) (readArray ty b off cnt { s with mem := m }) := by
  refine .ite (fun _ => .next m (raise _ s)) fun _ => ?_
  cases b with
  | null => exact .next m (raise _ s)
  | present bufLen =>
    refine .ite (fun _ => .next m (raise _ s)) fun _ => ?_
    obtain ⟨buf', hb, -⟩ := readElems_spec (ty := ty) (k := cnt.toNat) (i := off.toNat) (total := 0) hs
    rw [readElems_withStore hm hb, hb]
    exact .next m (respond _ _ _)

/-- Settles O36: the invariants let a read answer, and every word it looks at is one below WC. -/
theorem readsAccessAllocatedWordsOnly : Obligations.ReadsAccessAllocatedWordsOnly := by
  intro ty f b off cnt s m hs hm
  simp only [exec_rd, exec_rda]
  exact ⟨readScalar_alikeOver ty f hs hm, readArray_alikeOver ty b off cnt hs hm⟩

end Sys2Proof.Machine
end

section
/-! SUPPORT. The four ways `WR.<ty>` can go and what a field of no bits is to the primitives, said once, in every state
(spec/41_scalar_write.md R140, spec/40_bitfield_primitives.md R117(g)); with them the statements of the family
41_scalar_write.md. -/

namespace Sys2Proof.Machine

/-! ### What a scalar command answers -/

section
variable {ty : ScalarTy} {a : DWord} {f : Form} {s : State}

theorem exec_wr_of_closed (h : s.isOpen = false) : exec (.wr ty a f) s = .next (raise .closedStream s) := by
  rw [exec_wr, writeScalar, if_pos h]

theorem exec_wr_of_not_fieldOk (ho : s.isOpen = true) (hf : ¬ FieldOk ty f) :
    exec (.wr ty a f) s = .next (raise .invalidArgument s) := by
  rw [exec_wr, writeScalar, if_neg (by rw [ho]; decide), if_pos (fieldInvalid_iff_not_fieldOk.mpr hf)]

/-- What a write does once its field is known to be legal: the test of 20_memory.md R60, then the field write. -/
theorem exec_wr_of_fieldOk (ho : s.isOpen = true) (hf : FieldOk ty f) :
    exec (.wr ty a f) s =
      if 32 * s.maxWords < s.pos + fieldBits ty f then .next (raise .exhausted s)
      else .next (respond 0 0 (writeField ty a (fieldStart f) (fieldBits ty f) s)) := by
  rw [exec_wr, writeScalar, if_neg (by rw [ho]; decide), if_neg fun hi => fieldInvalid_iff_not_fieldOk.mp hi hf]
  rfl

theorem exec_wr_of_full (ho : s.isOpen = true) (hf : FieldOk ty f) (h : 32 * s.maxWords < s.pos + fieldBits ty f) :
    exec (.wr ty a f) s = .next (raise .exhausted s) := by
  rw [exec_wr_of_fieldOk ho hf, if_pos h]

theorem exec_wr_of_fits (ho : s.isOpen = true) (hf : FieldOk ty f) (h : s.pos + fieldBits ty f ≤ 32 * s.maxWords) :
    exec (.wr ty a f) s = .next (respond 0 0 (writeField ty a (fieldStart f) (fieldBits ty f) s)) := by
  rw [exec_wr_of_fieldOk ho hf, if_neg (Nat.not_lt.mpr h)]

/-- A read of a legal field that finds its words answers what the field read returns (42_scalar_read.md R160). -/
theorem exec_rd_of_readField {r : ReadOut 64} (ho : s.isOpen = true) (hf : FieldOk ty f)
    (h : readField ty (fieldStart f) (fieldBits ty f) s = .ok r) :
    exec (.rd ty f) s = .next (respond r.value r.bits r.state) := by
  rw [fieldStart, fieldBits] at h
  rw [exec_rd, readScalar, if_neg (by rw [ho]; decide), if_neg fun hi => fieldInvalid_iff_not_fieldOk.mp hi hf, h]

end

/-! ### A field of no bits -/

/-- Both parts of a field of no bits have no bits, wherever it lies (40_bitfield_primitives.md R121). -/
@[simp] theorem split64_zero_cnt1 (b : Nat) : (split64 b 0).cnt1 = 0 := by
  simp [split64]

@[simp] theorem split64_zero_cnt2 (b : Nat) : (split64 b 0).cnt2 = 0 := by
  simp [split64]

@[simp] theorem available_zero (s : State) : available s 0 = 0 := Nat.zero_min _

theorem writeBits_zero (value : Word) (b : Nat) (s : State) : writeBits value b 0 s = s := rfl

theorem writeHalf_zero (value : Word) (b : Nat) (s : State) : writeHalf value b 0 s = s := rfl

theorem write64_zero (value : DWord) (b : Nat) (s : State) : write64 value b 0 s = s := by
  simp only [write64, Config.halfOrder, split64_zero_cnt1, split64_zero_cnt2, writeHalf_zero]

/-- A write of no bits leaves every component as it is, and brings in no word (40_bitfield_primitives.md R117(g)). -/
theorem writeField_zero (ty : ScalarTy) (value : DWord) (b : Nat) (s : State) : writeField ty value b 0 s = s := by
  unfold writeField
  split
  · exact writeBits_zero _ b s
  · exact write64_zero value b s

theorem readBits_zero (b : Nat) (s : State) : readBits b 0 s = .ok ⟨0, 0, s⟩ := by
  simp only [readBits, available_zero, readLoop]

theorem readHalf_zero (b : Nat) (s : State) : readHalf b 0 s = .ok ⟨0, 0, s⟩ := rfl

theorem read64_zero (b : Nat) (s : State) : read64 b 0 s = .ok ⟨0, 0, s⟩ := by
  simp only [read64, Config.halfOrder, split64_zero_cnt1, split64_zero_cnt2, readHalf_zero]
  simp [joinHalves]

/-- A read of no bits looks at no word, so it stops in no state (42_scalar_read.md R160(b)). -/
theorem readField_zero (ty : ScalarTy) (b : Nat) (s : State) : readField ty b 0 s = .ok ⟨0, 0, s⟩ := by
  unfold readField
  split
  · rw [readBits_zero]
    rfl
  · exact read64_zero b s

/-! ### The statements -/

/-- Settles O25: the write and its bit law are `exec_wr_wrote`, and a byte is what its eight stream bits are. -/
theorem scalarWriteStoresField : Obligations.ScalarWriteStoresField := by
  intro ty a f s hs ho hf hroom
  obtain ⟨u, hexec, hu⟩ := exec_wr_wrote (a := a) hs ho hf hroom
  exact ⟨u, hexec, hu, fun _ hk => hu.readByte_outside hk⟩

/-- Settles O28: both commands run their field operation over no bits, and that is the identity in every state. -/
theorem emptyFieldChangesNothing : Obligations.EmptyFieldChangesNothing := by
  intro ty a f s ho hf hempty
  constructor
  · intro hpos
    rw [exec_wr_of_fits ho hf (by rwa [hempty]), hempty, writeField_zero]
  · have hread : readField ty (fieldStart f) (fieldBits ty f) s = .ok ⟨0, 0, s⟩ := by rw [hempty, readField_zero]
    exact exec_rd_of_readField ho hf hread

/-- Settles O26: one test after another, in the order of R259. -/
theorem scalarWriteFailures : Obligations.ScalarWriteFailures :=
  fun _ _ _ _ => ⟨exec_wr_of_closed, exec_wr_of_not_fieldOk, exec_wr_of_full⟩

end Sys2Proof.Machine
end

section
/-! SUPPORT. The ways `RD.<ty>` can go, and why the field of a value that was written in place is the field that is read
back (spec/42_scalar_read.md R160, R173); with them the statements of the family 42_scalar_read.md. -/

namespace Sys2Proof.Machine

/-! ### The cursor -/

/-- Shift and mask are quotient and remainder by the word's 32 bits (10_state.md R24). -/
theorem setCursor_eq_div_mod (p : Nat) (s : State) : setCursor p s = { s with wi := p / 32, bo := p % 32 } := by
  have hpos : ({ s with wi := p / 32, bo := p % 32 } : State).pos = p := by
    rw [State.pos]
    exact Nat.div_add_mod' p 32
  exact (eq_setCursor hpos (Nat.mod_lt p (by decide)) rfl).symm

/-- SETPOS to a position of the stream puts the cursor there (44_position_length.md R211). -/
theorem exec_setpos_of_le_len {p : Nat} {s : State} (ho : s.isOpen = true) (hp : p ≤ s.len) :
    exec (.setpos p) s = .next (respond 0 0 (setCursor p s)) := by
  have hvalid : ¬ PositionInvalid s.len p := by omega
  change execSetpos p s = _
  rw [execSetpos, if_neg (by rw [ho]; decide), if_neg hvalid, Int.toNat_natCast]

/-! ### What a scalar read answers -/

section
variable {ty : ScalarTy} {f : Form} {s : State}

theorem exec_rd_of_closed (h : s.isOpen = false) : exec (.rd ty f) s = .next (raise .closedStream s) := by
  rw [exec_rd, readScalar, if_pos h]

theorem exec_rd_of_not_fieldOk (ho : s.isOpen = true) (hf : ¬ FieldOk ty f) :
    exec (.rd ty f) s = .next (raise .invalidArgument s) := by
  rw [exec_rd, readScalar, if_neg (by rw [ho]; decide), if_pos (fieldInvalid_iff_not_fieldOk.mpr hf)]

/-- A legal field lies in the type, as natural numbers (40_bitfield_primitives.md R127). -/
theorem FieldOk.start_add_bits_le (hf : FieldOk ty f) : fieldStart f + fieldBits ty f ≤ width ty :=
  toNat_add_toNat_le_of_valid fun hi => fieldInvalid_iff_not_fieldOk.mp hi hf

/-- On an open unit a read of a legal field answers the available bits and moves the cursor past them (R119, R160). -/
theorem exec_rd_readAs (hs : UnitInv s) (ho : s.isOpen = true) (hf : FieldOk ty f) :
    ∃ v, exec (.rd ty f) s = .next (respond v (available s (fieldBits ty f))
        (setCursor (s.pos + available s (fieldBits ty f)) s)) ∧
      ReadAs s.mem s.pos (fieldStart f) (available s (fieldBits ty f)) v := by
  obtain ⟨v, hv, hread⟩ := readField_spec hs hf.start_add_bits_le
  exact ⟨v, exec_rd_of_readField ho hf hv, hread⟩

end

/-! ### The field of a value, in place -/

/-- The mask `2^c - 1` moved up to bit `b` keeps the bits `b .. b + c - 1` and clears the others. -/
theorem getLsbD_and_fieldMask (x : DWord) (b c j : Nat) :
    (x &&& (BitVec.ofNat 64 (2 ^ c - 1) <<< b)).getLsbD j = (x.getLsbD j && decide (b ≤ j ∧ j < b + c)) := by
  by_cases hj : j < 64
  · have hmask : (BitVec.ofNat 64 (2 ^ c - 1) <<< b).getLsbD j = decide (b ≤ j ∧ j < b + c) := by
      rw [BitVec.getLsbD_shiftLeft, BitVec.getLsbD_ofNat, Nat.testBit_two_pow_sub_one, Bool.eq_iff_iff]
      simp only [Bool.and_eq_true, Bool.not_eq_true', decide_eq_true_eq, decide_eq_false_iff_not]
      omega
    rw [BitVec.getLsbD_and, hmask]
  · rw [BitVec.getLsbD_of_ge _ _ (Nat.le_of_not_lt hj), BitVec.getLsbD_of_ge x j (Nat.le_of_not_lt hj), Bool.false_and]

/-- Where the field `[b, b + c)` of `x` has been written, reading `c` bits back to `[b, b + c)` gives that field and zeros
elsewhere: write and read put stream bit `i` of the field at the same value bit (R173). -/
theorem Wrote.readAs {s t : State} {x : DWord} {b c : Nat}
    (h : Wrote s t c (fun i => x.getLsbD (fieldBitIndex b c i))) :
    ReadAs t.mem s.pos b c (x &&& (BitVec.ofNat 64 (2 ^ c - 1) <<< b)) where
  bits i hi := by
    rw [getLsbD_and_fieldMask, decide_eq_true ⟨fieldBitIndex_ge hi, fieldBitIndex_lt hi⟩, Bool.and_true,
      h.bitAt_inside hi]
  clean j hj := by
    rw [getLsbD_and_fieldMask, decide_eq_false (by omega), Bool.and_false]

/-- What was written at the cursor is all available to a read from where the cursor was. -/
theorem Wrote.available_setCursor {s t : State} {k : Nat} {f : Nat → Bool} (h : Wrote s t k f) :
    available (setCursor s.pos t) k = k := by
  have hlen := h.len
  rw [available, setCursor_pos, setCursor_len]
  omega

/-! ### The statements -/

/-- Settles O33: the read is `exec_rd_readAs`, with the cursor pair written out. -/
theorem scalarReadReturnsField : Obligations.ScalarReadReturnsField := by
  intro ty f s hs ho hf
  simp only [← setCursor_eq_div_mod]
  exact exec_rd_readAs hs ho hf

/-- Settles O37: the write leaves the field's bits at P, SETPOS goes back there, and the value read is the only one that
`ReadAs` allows for those bits. -/
theorem writeThenReadReturnsTheField : Obligations.WriteThenReadReturnsTheField := by
  intro ty x f s hs ho hf hroom
  obtain ⟨t, hwrite, ht⟩ := exec_wr_wrote (a := x) hs ho hf hroom
  have hlen : s.pos ≤ t.len := by
    rw [ht.len]
    omega
  have hset := exec_setpos_of_le_len (s := respond 0 0 t) (ht.isOpen.trans ho) hlen
  have hinv : UnitInv (respond 0 0 (setCursor s.pos (respond 0 0 t))) :=
    (UnitInv.setCursor ((ht.inv hs hroom).respond 0 0) hlen).respond 0 0
  obtain ⟨v, hread, hv⟩ := exec_rd_readAs hinv (ht.isOpen.trans ho) hf
  have hav : available (respond 0 0 (setCursor s.pos (respond 0 0 t))) (fieldBits ty f) = fieldBits ty f :=
    ht.available_setCursor
  rw [hav] at hread hv
  rw [respond_pos, setCursor_pos] at hv
  cases hv.unique ht.readAs
  exact ⟨_, _, _, hwrite, hset, hread⟩

/-- Settles O34: one test after another; how many bits are available has no part in them. -/
theorem scalarReadFailures : Obligations.ScalarReadFailures :=
  fun _ _ _ => ⟨exec_rd_of_closed, exec_rd_of_not_fieldOk⟩

end Sys2Proof.Machine
end

section
/-! SUPPORT. The ways `WRA.<ty>` and `RDA.<ty>` can go, which bits an array write leaves in the stream and which elements
an array read leaves in the operand buffer (spec/43_array.md R180, R193, R205); with them the statements of the family
43_array.md. -/

namespace Sys2Proof.Machine

/-! ### What an array command answers -/

/-- The array commands' checks let pass exactly the ranges that lie in the buffer (43_array.md R180, R193). -/
theorem arrayInvalid_iff_not_arrayOk {bufLen : Nat} {off cnt : Int} :
    ArrayInvalid bufLen off cnt ↔ ¬ ArrayOk bufLen off cnt := by
  simp only [ArrayInvalid, ArrayOk]
  omega

section
variable {ty : ScalarTy} {b : BufArg} {bufLen : Nat} {off cnt : Int} {s : State}

theorem exec_wra_of_closed (h : s.isOpen = false) : exec (.wra ty b off cnt) s = .next (raise .closedStream s) := by
  rw [exec_wra]
  exact if_pos h

theorem exec_wra_of_null (ho : s.isOpen = true) : exec (.wra ty .null off cnt) s = .next (raise .nullArgument s) := by
  rw [exec_wra, writeArray, if_neg (by rw [ho]; decide)]

theorem exec_wra_of_not_arrayOk (ho : s.isOpen = true) (hr : ¬ ArrayOk bufLen off cnt) :
    exec (.wra ty (.present bufLen) off cnt) s = .next (raise .invalidArgument s) := by
  rw [exec_wra, writeArray, if_neg (by rw [ho]; decide), if_pos (arrayInvalid_iff_not_arrayOk.mpr hr)]

/-- What an array write does once its range is known to be legal: the test of 20_memory.md R60, then the loop. -/
theorem exec_wra_of_arrayOk (ho : s.isOpen = true) (hr : ArrayOk bufLen off cnt) :
    exec (.wra ty (.present bufLen) off cnt) s =
      if 32 * s.maxWords < s.pos + cnt.toNat * width ty then .next (raise .exhausted s)
      else .next (respond 0 0 (writeElems ty cnt.toNat off.toNat s)) := by
  rw [exec_wra, writeArray, if_neg (by rw [ho]; decide)]
  exact if_neg fun hi => arrayInvalid_iff_not_arrayOk.mp hi hr

theorem exec_wra_of_full (ho : s.isOpen = true) (hr : ArrayOk bufLen off cnt)
    (h : 32 * s.maxWords < s.pos + cnt.toNat * width ty) :
    exec (.wra ty (.present bufLen) off cnt) s = .next (raise .exhausted s) := by
  rw [exec_wra_of_arrayOk ho hr, if_pos h]

theorem exec_wra_of_fits (ho : s.isOpen = true) (hr : ArrayOk bufLen off cnt)
    (h : s.pos + cnt.toNat * width ty ≤ 32 * s.maxWords) :
    exec (.wra ty (.present bufLen) off cnt) s = .next (respond 0 0 (writeElems ty cnt.toNat off.toNat s)) := by
  rw [exec_wra_of_arrayOk ho hr, if_neg (Nat.not_lt.mpr h)]

theorem exec_rda_of_closed (h : s.isOpen = false) : exec (.rda ty b off cnt) s = .next (raise .closedStream s) := by
  rw [exec_rda]
  exact if_pos h

theorem exec_rda_of_null (ho : s.isOpen = true) : exec (.rda ty .null off cnt) s = .next (raise .nullArgument s) := by
  rw [exec_rda, readArray, if_neg (by rw [ho]; decide)]

theorem exec_rda_of_not_arrayOk (ho : s.isOpen = true) (hr : ¬ ArrayOk bufLen off cnt) :
    exec (.rda ty (.present bufLen) off cnt) s = .next (raise .invalidArgument s) := by
  rw [exec_rda, readArray, if_neg (by rw [ho]; decide), if_pos (arrayInvalid_iff_not_arrayOk.mpr hr)]

/-- An array read of a legal range that finds its words answers the number of bits its loop has read (R193). -/
theorem exec_rda_of_readElems {total : Nat} {t : State} (ho : s.isOpen = true) (hr : ArrayOk bufLen off cnt)
    (h : readElems ty cnt.toNat off.toNat 0 s = .ok (total, t)) :
    exec (.rda ty (.present bufLen) off cnt) s = .next (respond 0 total t) := by
  have hvalid : ¬ ArrayInvalid bufLen off cnt := fun hi => arrayInvalid_iff_not_arrayOk.mp hi hr
  rw [exec_rda, readArray, if_neg (by rw [ho]; decide), if_neg hvalid, h]

end

/-! ### The elements in the stream and in the buffer -/

/-- Stream bit `x` of the elements from `off` on, laid one after another, each whole and in stream order (R180). -/
def elementBit (ty : ScalarTy) (buf : List DWord) (off x : Nat) : Bool :=
  (bufGet buf (off + x / width ty)).getLsbD (fieldBitIndex 0 (width ty) (x % width ty))

/-- The bits of the `d`-th element stand `d` widths behind the first, and are those of its low `width(ty)` bits (R205). -/
theorem elementBit_mul_add {ty : ScalarTy} {i : Nat} (buf : List DWord) (off d : Nat) (hi : i < width ty) :
    elementBit ty buf off (d * width ty + i) =
      (elementOf ty (bufGet buf (off + d))).getLsbD (fieldBitIndex 0 (width ty) i) := by
  have hlow : fieldBitIndex 0 (width ty) i < width ty := by simpa using fieldBitIndex_lt (b := 0) hi
  have hdiv : (d * width ty + i) / width ty = d := by
    rw [Nat.mul_comm, Nat.mul_add_div (width_pos ty), Nat.div_eq_of_lt hi, Nat.add_zero]
  rw [elementBit, hdiv, Nat.mul_add_mod_self_right, Nat.mod_eq_of_lt hi, getLsbD_elementOf, decide_eq_true hlow,
    Bool.true_and]

/-- `buf` is the operand buffer of `s` with the next `n` bits of the stream stored as elements from `off` on, the last of
them perhaps short (R193). -/
def Filled (ty : ScalarTy) (s : State) (off n : Nat) (buf : List DWord) : Prop :=
  ∀ e, if off ≤ e ∧ e < off + (n + width ty - 1) / width ty
    then ReadAs s.mem (s.pos + (e - off) * width ty) 0
      (min (width ty) (s.len - (s.pos + (e - off) * width ty))) (bufGet buf e)
    else bufGet buf e = bufGet s.buf e

section
variable {ty : ScalarTy} {bufLen : Nat} {off cnt : Int} {s : State}

/-- On an open unit a legal range that fits the store is written at the cursor (R180). -/
theorem exec_wra_wrote (hs : UnitInv s) (ho : s.isOpen = true) (hr : ArrayOk bufLen off cnt)
    (hroom : s.pos + cnt.toNat * width ty ≤ 32 * s.maxWords) :
    ∃ u, exec (.wra ty (.present bufLen) off cnt) s = .next (respond 0 0 u) ∧
      Wrote s u (cnt.toNat * width ty) (elementBit ty s.buf off.toNat) :=
  ⟨_, exec_wra_of_fits ho hr hroom, writeElems_wrote hs hroom⟩

/-- On an open unit an array read of a legal range fills the buffer with the available bits and moves the cursor past
them (R193). -/
theorem exec_rda_filled (hs : UnitInv s) (ho : s.isOpen = true) (hr : ArrayOk bufLen off cnt) :
    ∃ buf', exec (.rda ty (.present bufLen) off cnt) s = .next (respond 0 (available s (cnt.toNat * width ty))
        { setCursor (s.pos + available s (cnt.toNat * width ty)) s with buf := buf' }) ∧
      Filled ty s off.toNat (available s (cnt.toNat * width ty)) buf' := by
  obtain ⟨buf', hread, hfill⟩ := readElems_spec (ty := ty) (k := cnt.toNat) (i := off.toNat) (total := 0) hs
  rw [Nat.zero_add] at hread
  exact ⟨buf', exec_rda_of_readElems ho hr hread, hfill⟩

end

/-! ### The elements written, read back -/

section
variable {ty : ScalarTy} {s t : State} {k off : Nat} {buf : List DWord}

/-- Where `k` elements have been written, each reads as its own low `width(ty)` bits. -/
theorem Wrote.readAs_element (h : Wrote s t (k * width ty) (elementBit ty buf off)) {d : Nat} (hd : d < k) :
    ReadAs t.mem (s.pos + d * width ty) 0 (width ty) (elementOf ty (bufGet buf (off + d))) where
  bits i hi := by
    have hend : (d + 1) * width ty ≤ k * width ty := Nat.mul_le_mul_right _ hd
    rw [Nat.succ_mul] at hend
    rw [Nat.add_assoc, h.bitAt_inside (by omega), elementBit_mul_add buf off d hi]
  clean j hj := by
    rw [getLsbD_elementOf, decide_eq_false (by omega), Bool.false_and]

/-- Whole elements are as many as were asked for: rounding up adds none (R193). -/
theorem mul_add_pred_div_self {w : Nat} (hw : 0 < w) (k : Nat) : (k * w + w - 1) / w = k :=
  Nat.div_eq_of_lt_le (by omega) (by rw [Nat.succ_mul]; omega)

/-- An array read from where the elements were written fills the buffer with them (R173, R180, R193). -/
theorem Filled.bufGet_of_wrote {buf' : List DWord} (h : Wrote s t (k * width ty) (elementBit ty t.buf off))
    (hfill : Filled ty (setCursor s.pos t) off (k * width ty) buf') (e : Nat) :
    bufGet buf' e = if off ≤ e ∧ e < off + k then elementOf ty (bufGet t.buf e) else bufGet t.buf e := by
  have he := hfill e
  rw [mul_add_pred_div_self (width_pos ty), setCursor_pos, setCursor_mem, setCursor_len, setCursor_buf] at he
  split
  next hin =>
    rw [if_pos hin] at he
    obtain ⟨d, rfl⟩ := Nat.exists_eq_add_of_le hin.1
    have hd : d < k := by omega
    have hlen : (d + 1) * width ty ≤ k * width ty := Nat.mul_le_mul_right _ hd
    have hfull : min (width ty) (t.len - (s.pos + d * width ty)) = width ty := by
      rw [Nat.succ_mul] at hlen
      rw [h.len]
      omega
    rw [Nat.add_sub_cancel_left, hfull] at he
    exact he.unique (h.readAs_element hd)
  next hout => rwa [if_neg hout] at he

end

/-! ### The statements -/

/-- Settles O38: the write and its bit law are `exec_wra_wrote`, and a byte is what its eight stream bits are. -/
theorem arrayWriteStoresElements : Obligations.ArrayWriteStoresElements := by
  intro ty bufLen off cnt s hs ho hr hroom
  obtain ⟨u, hexec, hu⟩ := exec_wra_wrote hs ho hr hroom
  exact ⟨u, hexec, hu, fun _ hk => hu.readByte_outside hk⟩

/-- Settles O40: the read is `exec_rda_filled`, with the cursor pair written out. -/
theorem arrayReadStoresElements : Obligations.ArrayReadStoresElements := by
  intro ty bufLen off cnt s hs ho hr
  obtain ⟨buf', hexec, hfill⟩ := exec_rda_filled (ty := ty) hs ho hr
  rw [setCursor_eq_div_mod] at hexec
  exact ⟨buf', hexec, hfill⟩

/-- Settles O42: the write leaves the elements' bits at P and the buffer as it was, SETPOS goes back to P, and the
elements read there are the only ones that `ReadAs` allows for those bits. -/
theorem arrayWriteThenReadReturnsTheElements : Obligations.ArrayWriteThenReadReturnsTheElements := by
  intro ty bufLen off cnt s hs ho hr hroom
  obtain ⟨t, hwrite, ht⟩ := exec_wra_wrote hs ho hr hroom
  have hlen : s.pos ≤ t.len := by
    rw [ht.len]
    omega
  have hset := exec_setpos_of_le_len (s := respond 0 0 t) (ht.isOpen.trans ho) hlen
  have hinv : UnitInv (respond 0 0 (setCursor s.pos (respond 0 0 t))) :=
    (UnitInv.setCursor ((ht.inv hs hroom).respond 0 0) hlen).respond 0 0
  obtain ⟨buf', hread, hfill⟩ := exec_rda_filled (ty := ty) hinv (ht.isOpen.trans ho) hr
  have hav : available (respond 0 0 (setCursor s.pos (respond 0 0 t))) (cnt.toNat * width ty) = cnt.toNat * width ty :=
    ht.available_setCursor
  rw [hav] at hread hfill
  have hbuf : t.buf = s.buf := ht.buf
  rw [← hbuf] at ht ⊢
  exact ⟨_, _, _, hwrite, hset, hread, hfill.bufGet_of_wrote ht⟩

/-- Settles O39: one test after another, in the order of R259. -/
theorem arrayWriteFailures : Obligations.ArrayWriteFailures :=
  fun _ _ _ _ _ => ⟨fun h _ => exec_wra_of_closed h, exec_wra_of_null, exec_wra_of_not_arrayOk, exec_wra_of_full⟩

/-- Settles O41: one test after another; how many bits are available has no part in them. -/
theorem arrayReadFailures : Obligations.ArrayReadFailures :=
  fun _ _ _ _ _ => ⟨fun h _ => exec_rda_of_closed h, exec_rda_of_null, exec_rda_of_not_arrayOk⟩

end Sys2Proof.Machine
end

section
/-! SUPPORT. What an accessor answers on an open and on a closed unit, and why the shift-and-mask idiom of the derived
lengths is the ceiling (spec/44_position_length.md R210 to R216); with them the statements of the family
44_position_length.md. -/

namespace Sys2Proof.Machine

/-! ### The accessors run their template -/

theorem exec_getpos (s : State) : exec .getpos s = answerOpen (s.wi * 32 + s.bo) s := rfl

theorem exec_getlen (s : State) : exec .getlen s = answerOpen s.len s := rfl

theorem exec_len8 (s : State) : exec .len8 s = answerOpen (roundUp s.len 3) s := rfl

theorem exec_len16 (s : State) : exec .len16 s = answerOpen (roundUp s.len 4) s := rfl

theorem exec_len32 (s : State) : exec .len32 s = answerOpen (roundUp s.len 5) s := rfl

theorem exec_len64 (s : State) : exec .len64 s = answerOpen (roundUp s.len 6) s := rfl

/-! ### The template -/

theorem answerOpen_of_open {s : State} (h : s.isOpen = true) (v : Nat) :
    answerOpen v s = .next (respond (BitVec.ofNat 64 v) 0 s) := by
  rw [answerOpen, if_neg (by rw [h]; decide)]

theorem answerOpen_of_closed {s : State} (h : s.isOpen = false) (v : Nat) :
    answerOpen v s = .next (raise .closedStream s) := by
  rw [answerOpen, if_pos h]

/-! ### Rounding up -/

/-- The idiom of R213 is the ceiling: adding `width - 1` before the division carries into the quotient exactly when the
remainder is not 0. -/
theorem roundUp_eq_add_div (n shift : Nat) : roundUp n shift = (n + (2 ^ shift - 1)) / 2 ^ shift := by
  have hwidth : 0 < 2 ^ shift := Nat.two_pow_pos shift
  have hlt : 2 ^ shift - 1 < 2 ^ shift := Nat.sub_lt hwidth Nat.one_pos
  have hcarry : n % 2 ^ shift ≠ 0 ↔ 2 ^ shift ≤ n % 2 ^ shift + (2 ^ shift - 1) := by omega
  rw [roundUp, Nat.shiftRight_eq_div_pow, Nat.and_two_pow_sub_one_eq_mod, Nat.add_div hwidth, Nat.div_eq_of_lt hlt,
    Nat.mod_eq_of_lt hlt, Nat.add_zero, if_congr hcarry rfl rfl]

/-! ### The statements -/

/-- Settles O44: each of the four is the accessor template on the rounded length, and rounding up is the ceiling. -/
theorem derivedLengthsAreCeilings : Obligations.DerivedLengthsAreCeilings := by
  intro s ho
  rw [exec_len8, exec_len16, exec_len32, exec_len64]
  simp only [roundUp_eq_add_div]
  exact ⟨answerOpen_of_open ho _, answerOpen_of_open ho _, answerOpen_of_open ho _, answerOpen_of_open ho _⟩

/-- Settles O43: both are the accessor template, on the flat cursor and on the length. -/
theorem positionAndLengthAnswers : Obligations.PositionAndLengthAnswers := by
  intro s
  rw [exec_getpos, exec_getlen]
  exact ⟨fun ho => ⟨answerOpen_of_open ho _, answerOpen_of_open ho _⟩,
    fun hc => ⟨answerOpen_of_closed hc _, answerOpen_of_closed hc _⟩⟩

/-- Settles O45: a position in 0 .. LEN is a natural number p, and the cursor is put at (p / 32, p mod 32). -/
theorem setPositionMovesTheCursor : Obligations.SetPositionMovesTheCursor := by
  intro v s ho h0 hlen
  obtain ⟨p, rfl⟩ := Int.eq_ofNat_of_zero_le h0
  rw [exec_setpos_of_le_len ho (Int.ofNat_le.mp hlen), setCursor_eq_div_mod, Int.toNat_natCast]

end Sys2Proof.Machine
end

section
/-! SUPPORT. What creation, CLOSE, FLUSH and the state flags run, and the tests of INITC one by one
(spec/45_lifecycle_flags.md R230 to R238); with them the statements of the family 45_lifecycle_flags.md. -/

namespace Sys2Proof.Machine

/-! ### The commands run their templates -/

/-- INIT makes the stream a hardware reset makes, and answers (R230). -/
theorem exec_init (s : State) : exec .init s = .next (respond 0 0 (hardReset s)) := rfl

theorem exec_initc (cap : Int) (s : State) : exec (.initc cap) s = execInitc cap s := rfl

theorem exec_close (s : State) : exec .close s = .next (respond 0 0 { s with isOpen := false }) := rfl

/-- FLUSH answers as an accessor of the constant 0 does (R233). -/
theorem exec_flush (s : State) : exec .flush s = answerOpen 0 s := rfl

theorem exec_canread (s : State) : exec .canread s = answerFlag s.isOpen s := rfl

theorem exec_canwrite (s : State) : exec .canwrite s = answerFlag s.isOpen s := rfl

theorem exec_canseek (s : State) : exec .canseek s = answerFlag false s := rfl

theorem exec_cansetlen (s : State) : exec .cansetlen s = answerFlag false s := rfl

theorem exec_canflush (s : State) : exec .canflush s = answerFlag false s := rfl

/-! ### The answer of a flag -/

theorem answerFlag_eq_ite (b : Bool) (s : State) : answerFlag b s = .next (respond (if b then 1 else 0) 0 s) := rfl

theorem answerFlag_false (s : State) : answerFlag false s = .next (respond 0 0 s) := rfl

/-! ### The words of a capacity, and the tests of INITC -/

/-- The words INITC allocates are the ceiling of the capacity over a word's 32 bits (R231). -/
theorem capWords_eq_add_div (cap : Int) : capWords cap = (cap.toNat + 31) / 32 := roundUp_eq_add_div cap.toNat 5

section
variable {cap : Int} {s : State}

theorem exec_initc_of_nonpos (h : cap ≤ 0) : exec (.initc cap) s = .next (raise .invalidArgument s) := by
  rw [exec_initc, execInitc, if_pos h]

theorem exec_initc_of_full (h : 0 < cap) (hroom : s.maxWords < capWords cap) :
    exec (.initc cap) s = .next (raise .exhausted s) := by
  rw [exec_initc, execInitc, if_neg (Int.not_le.mpr h), if_pos hroom]

theorem exec_initc_of_fits (h : 0 < cap) (hroom : capWords cap ≤ s.maxWords) :
    exec (.initc cap) s = .next (respond 0 0 (create (capWords cap) s)) := by
  rw [exec_initc, execInitc, if_neg (Int.not_le.mpr h), if_neg (Nat.not_lt.mpr hroom)]

end

/-! ### The statements -/

/-- Settles O48: one test after another, on the number of words that rounding up gives. -/
theorem initcCreatesTheCapacity : Obligations.InitcCreatesTheCapacity := by
  intro cap s
  rw [← capWords_eq_add_div]
  exact ⟨exec_initc_of_nonpos, exec_initc_of_full, exec_initc_of_fits⟩

/-- Settles O47: a hardware reset and INIT make the same stream, and an empty cell list holds zero words. -/
theorem initCreatesTheDefaultStream : Obligations.InitCreatesTheDefaultStream :=
  fun s => ⟨exec_init s, exec_init s, readWord_nil⟩

/-- Settles O49: CLOSE tests nothing. -/
theorem closeClearsOpen : Obligations.CloseClearsOpen := exec_close

/-- Settles O50: FLUSH is the accessor template, whose closed check is its only test. -/
theorem flushIsANoOp : Obligations.FlushIsANoOp := by
  intro s
  rw [exec_flush]
  exact ⟨fun ho => answerOpen_of_open ho 0, fun hc => answerOpen_of_closed hc 0⟩

/-- Settles O51: each of the five is the flag template, on OPEN or on the constant false. -/
theorem flagsAnswer : Obligations.FlagsAnswer := by
  intro s
  rw [exec_canread, exec_canwrite, exec_canseek, exec_cansetlen, exec_canflush, answerFlag_false]
  exact ⟨answerFlag_eq_ite s.isOpen s, answerFlag_eq_ite s.isOpen s, rfl, rfl, rfl⟩

end Sys2Proof.Machine
end

section
/-! SUPPORT. What a response's status says of the command that gave it, in every state, and why a read at the end of the
stream looks at no word (spec/60_exceptions.md R250 to R260); with them the statements of the family 60_exceptions.md. -/

namespace Sys2Proof.Machine

/-! ### The status of a response -/

/-- What an instruction that answers the response `r` has done: `ExecCases` with the response written out. -/
inductive ResponseCases (i : Instr) (s : State) : State → Response → Prop
  | failed (st : Status) (h : Failed i s st) : ResponseCases i s (raise st s) ⟨st, 0, 0⟩
  | done (v : DWord) (n : Nat) (u : State) (h : Done i s v n u) :
      ResponseCases i s (respond v n u) ⟨.ok, v, BitVec.ofNat 64 n⟩

theorem response_eq_of_append_eq {l : List Answer} {r r' : Response} {buf buf' : List DWord}
    (h : l ++ [⟨r, buf⟩] = l ++ [⟨r', buf'⟩]) : r = r' :=
  congrArg Answer.response (List.singleton_inj.mp (List.append_cancel_left h))

section
variable {i : Instr} {s t : State} {r : Response}

theorem responseCases_of_exec (h : exec i s = .next t) (ha : t.answers = s.answers ++ [⟨r, t.buf⟩]) :
    ResponseCases i s t r := by
  cases exec_cases h with
  | failed st hf =>
    cases response_eq_of_append_eq ha
    exact .failed st hf
  | done v n u hu =>
    rw [respond_answers, hu.answers] at ha
    cases response_eq_of_append_eq ha
    exact .done v n u hu

/-- A response whose status is not OK is that of a failure of the command's row, and the whole of what it did is to answer
it (R258, R260). -/
theorem ResponseCases.failed_of_ne_ok (h : ResponseCases i s t r) (hne : r.st ≠ .ok) :
    Failed i s r.st ∧ t = raise r.st s := by
  cases h with
  | failed st hf => exact ⟨hf, rfl⟩
  | done => exact absurd rfl hne

/-- R251: which commands answer ClosedStream, and when. -/
theorem ResponseCases.closedStream_iff (h : ResponseCases i s t r) :
    r.st = .closedStream ↔ s.isOpen = false ∧ needsOpen i = true := by
  cases h with
  | failed st hf => exact hf.closed
  | done v n u hu => exact ⟨nofun, fun hc => absurd hc hu.ready⟩

end

/-! ### The rows of R258 -/

theorem closedStream_mem_mayRaise_iff (i : Instr) : .closedStream ∈ mayRaise i ↔
    kindOf i ∈ [Kind.write, .read, .arrayWrite, .arrayRead, .accessor, .setPosition, .flush] := by
  unfold mayRaise
  cases kindOf i with
  | write | read => cases isFieldForm i <;> decide
  | _ => simp

/-- R252: the field forms, the array commands and INITC are those that check an argument. -/
theorem invalidArgument_mem_mayRaise_iff (i : Instr) : .invalidArgument ∈ mayRaise i ↔
    kindOf i ∈ [Kind.write, .read] ∧ isFieldForm i = true ∨ kindOf i ∈ [Kind.arrayWrite, .arrayRead, .initCapacity] := by
  unfold mayRaise
  cases kindOf i with
  | write | read => cases isFieldForm i <;> decide
  | _ => simp

theorem illegalCommand_not_mem_mayRaise (i : Instr) : .illegalCommand ∉ mayRaise i := by
  unfold mayRaise
  cases kindOf i with
  | write | read => cases isFieldForm i <;> decide
  | _ => simp

theorem code_ne_six (st : Status) : st.code ≠ 6 := by
  cases st <;> decide

/-! ### Every command answers on a closed unit -/

/-- A closed unit looks at no word, whatever the state: the closed check of R251 comes before the first access. -/
theorem exec_answers_of_closed (i : Instr) {s : State} (h : s.isOpen = false) : Answers (exec i s) := by
  induction i using instr_cases
  case h_wr ty a f => exact ⟨_, exec_wr_of_closed h⟩
  case h_rd ty f => exact ⟨_, exec_rd_of_closed h⟩
  case h_wra ty b off cnt => exact ⟨_, exec_wra_of_closed h⟩
  case h_rda ty b off cnt => exact ⟨_, exec_rda_of_closed h⟩
  case h_setpos p => exact ⟨_, if_pos h⟩
  case h_flush | h_getpos | h_getlen | h_len8 | h_len16 | h_len32 | h_len64 => exact ⟨_, answerOpen_of_closed h _⟩
  case h_initc cap => exact .ite (fun _ => .next _) fun _ => .ite (fun _ => .next _) fun _ => .next _
  case h_init | h_close | h_canread | h_canwrite | h_canseek | h_cansetlen | h_canflush => exact .next _

/-! ### Reads at the end of the stream -/

section
variable {s : State} (h : s.len ≤ s.pos)
include h

theorem available_of_len_le_pos (c : Nat) : available s c = 0 := by
  rw [available, Nat.sub_eq_zero_of_le h, Nat.min_zero]

theorem readBits_of_len_le_pos (b c : Nat) : readBits b c s = .ok ⟨0, 0, s⟩ := by
  simp only [readBits, available_of_len_le_pos h, readLoop]

theorem readHalf_of_len_le_pos (b c : Nat) : readHalf b c s = .ok ⟨0, 0, s⟩ := by
  rw [readHalf, readBits_of_len_le_pos h, ite_self]

theorem read64_of_len_le_pos (b c : Nat) : read64 b c s = .ok ⟨0, 0, s⟩ := by
  simp only [read64, Config.halfOrder, readHalf_of_len_le_pos h]
  simp [joinHalves]

/-- The soft end of stream (40_bitfield_primitives.md R119): no bits, no word looked at, no cursor moved. -/
theorem readField_of_len_le_pos (ty : ScalarTy) (b c : Nat) : readField ty b c s = .ok ⟨0, 0, s⟩ := by
  rw [readField, readBits_of_len_le_pos h, read64_of_len_le_pos h]
  exact ite_self _

/-- The first element of RDA reads no bits, which ends its loop before anything is stored (43_array.md R193). -/
theorem readElems_of_len_le_pos (ty : ScalarTy) (k i total : Nat) : readElems ty k i total s = .ok (total, s) := by
  cases k with
  | zero => rfl
  | succ k => simp only [readElems, readField_of_len_le_pos h, if_true]

end

/-! ### SETPOS outside the stream -/

theorem exec_setpos_of_outside {v : Int} {s : State} (ho : s.isOpen = true) (hv : v < 0 ∨ v > s.len) :
    exec (.setpos v) s = .next (raise .outOfRange s) := by
  have hinvalid : PositionInvalid s.len v := by omega
  change execSetpos v s = _
  rw [execSetpos, if_neg (by rw [ho]; decide), if_pos hinvalid]

/-! ### The statements -/

/-- Settles O10: the decoder rejects every reserved word, and then the step is `raise` on the command taken. -/
theorem reservedWordAnswersIllegalCommand : Obligations.ReservedWordAnswersIllegalCommand := by
  refine ⟨rfl, fun s c rest h hres => ?_⟩
  obtain ⟨e, he⟩ := (reservedWordsAreExactlyTheRejected c.frame).mpr hres
  exact step_of_decode_error h he

/-- Settles O19: a response that is not OK is that of a failure, and a failure is `raise` on the state before it. -/
theorem failureChangesNothing : Obligations.FailureChangesNothing :=
  fun _ _ _ _ h ha hne => ((responseCases_of_exec h ha).failed_of_ne_ok hne).2

/-- Settles O20: on a closed unit every command answers, and `ResponseCases.closedStream_iff` says with what. -/
theorem closedStreamExactlyWhenClosed : Obligations.ClosedStreamExactlyWhenClosed := by
  refine ⟨rfl, fun i => decide_eq_true_iff.trans (closedStream_mem_mayRaise_iff i),
    fun i s => ⟨fun hc hn => ?_, fun hc hn => ?_, fun ho t r h ha hst => ?_⟩⟩
  · obtain ⟨t, h⟩ := exec_answers_of_closed i hc
    obtain ⟨r, ha⟩ := exec_answeredOnce h
    have hr := responseCases_of_exec h ha
    have hst : r.st = .closedStream := hr.closedStream_iff.mpr ⟨hc, hn⟩
    obtain ⟨-, ht⟩ := hr.failed_of_ne_ok (by rw [hst]; decide)
    rw [h, ht, hst]
  · obtain ⟨t, h⟩ := exec_answers_of_closed i hc
    obtain ⟨r, ha⟩ := exec_answeredOnce h
    refine ⟨t, r, h, ha, fun hst => ?_⟩
    obtain ⟨-, hneeds⟩ := (responseCases_of_exec h ha).closedStream_iff.mp hst
    cases hn.symm.trans hneeds
  · obtain ⟨hc, -⟩ := (responseCases_of_exec h ha).closedStream_iff.mp hst
    cases ho.symm.trans hc

/-- Settles O21: a status other than OK is in the command's row, and the rows hold no IllegalCommand and an InvalidArgument
only where an argument is checked. -/
theorem failuresAreThoseOfTheTable : Obligations.FailuresAreThoseOfTheTable := by
  refine ⟨fun i s t r h ha => ?_, rfl, rfl, rfl, rfl, rfl, rfl, rfl, code_ne_six⟩
  have hmem : r.st ≠ .ok → r.st ∈ mayRaise i := fun hne => ((responseCases_of_exec h ha).failed_of_ne_ok hne).1.mem
  refine ⟨or_iff_not_imp_left.mpr hmem, fun hst => ?_, fun hst => ?_⟩
  · rw [hst] at hmem
    exact illegalCommand_not_mem_mayRaise i (hmem nofun)
  · rw [hst] at hmem
    obtain ⟨-, hfield⟩ | hkind := (invalidArgument_mem_mayRaise_iff i).mp (hmem nofun)
    · exact .inl hfield
    · simp only [List.mem_cons, List.not_mem_nil, or_false] at hkind
      exact .inr hkind

/-- Settles O35: the field read and the element loop return at once, on a legal field and a legal range. -/
theorem softEndOfStream : Obligations.SoftEndOfStream := by
  intro ty f bufLen off cnt s ho hend
  exact ⟨fun hf => exec_rd_of_readField ho hf (readField_of_len_le_pos hend ty _ _),
    fun hr => exec_rda_of_readElems ho hr (readElems_of_len_le_pos hend ty _ _ _)⟩

/-- Settles O46: SETPOS tests the position after OPEN, and no other failure is OutOfRange. -/
theorem setPositionOutOfRange : Obligations.SetPositionOutOfRange := by
  refine ⟨rfl, fun v s => exec_setpos_of_outside, fun i s t r h ha hst => ?_⟩
  obtain ⟨hf, -⟩ := (responseCases_of_exec h ha).failed_of_ne_ok (by rw [hst]; decide)
  exact hf.range hst

end Sys2Proof.Machine
end

section
/-! SUPPORT. Why one write from one state can end in one state only, and so why two values that agree on the field are
written alike (spec/41_scalar_write.md R140(b), spec/70_reset_and_hazards.md R292); with it the statements of the family
70_reset_and_hazards.md. -/

namespace Sys2Proof.Machine

/-! ### What determines a write -/

/-- The bit law fixes the whole state a write ends in: `Wrote.capacityOnly` fixes all but WC, and growth fixes WC
(40_bitfield_primitives.md R117, 20_memory.md R59). -/
theorem Wrote.unique {s u u' : State} {k : Nat} {f : Nat → Bool} (h : Wrote s u k f) (h' : Wrote s u' k f) : u = u' := by
  have halike : u' = { u with wc := u'.wc } := h.capacityOnly (n := s.wc) h'
  have hwc : u'.wc = u.wc := h'.wc.trans h.wc.symm
  rw [halike, hwc]

/-- The bits a field write places in the stream are bits of the field (20_memory.md R52). -/
theorem getLsbD_fieldBitIndex_congr {a a' : DWord} {b c : Nat}
    (h : ∀ j, b ≤ j → j < b + c → a.getLsbD j = a'.getLsbD j) {i : Nat} (hi : i < c) :
    a.getLsbD (fieldBitIndex b c i) = a'.getLsbD (fieldBitIndex b c i) :=
  h _ (fieldBitIndex_ge hi) (fieldBitIndex_lt hi)

/-! ### The statements -/

/-- Settles O29: the tests before the write do not look at the value, and where it is written both values place the same
stream bits, which determine the state the write ends in. -/
theorem bitsOutsideTheFieldAreDropped : Obligations.BitsOutsideTheFieldAreDropped := by
  intro ty a a' f s hs hagree
  cases ho : s.isOpen with
  | false => rw [exec_wr_of_closed ho, exec_wr_of_closed ho]
  | true =>
    by_cases hf : FieldOk ty f
    · by_cases hroom : s.pos + fieldBits ty f ≤ 32 * s.maxWords
      · obtain ⟨u, hexec, hu⟩ := exec_wr_wrote (a := a) hs ho hf hroom
        obtain ⟨u', hexec', hu'⟩ := exec_wr_wrote (a := a') hs ho hf hroom
        have hsame : u = u' := (hu.congr fun _ hi => getLsbD_fieldBitIndex_congr hagree hi).unique hu'
        rw [hexec, hexec', hsame]
      · have hfull := Nat.lt_of_not_le hroom
        rw [exec_wr_of_full ho hf hfull, exec_wr_of_full ho hf hfull]
    · rw [exec_wr_of_not_fieldOk ho hf, exec_wr_of_not_fieldOk ho hf]

/-- Settles O11: the step takes the reset event, and a hardware reset is the creation of the default stream. -/
theorem hardwareResetBetweenCommands : Obligations.HardwareResetBetweenCommands :=
  fun _ _ h => step_of_pending_reset h

end Sys2Proof.Machine
end
